-- ==== Sys2Proof/Word.lean ====
section
/-! DEFINITION. The two word types of the rust-vcpu CORE (00_scope.md R8, R9). -/

namespace Sys2Proof

/-- A register, an address, an immediate, the cycle counter: an unsigned 64-bit value (R8 `XLEN`). -/
abbrev Word := BitVec 64

/-- One byte of bytecode, of an instruction or of source text (R46). -/
abbrev Byte := BitVec 8

end Sys2Proof
end

