-- ==== Sys2Proof/Config.lean ====
section
/-! DEFINITION. What an implementation of the CORE fixes: the parameters of 00_scope.md R8. Two are
open and are carried by the machine state as plain data (`Params`), so that a statement about every
state is a statement about every choice of them (log 1, log 2). -/

namespace Sys2Proof.Config

/-- The number of general-purpose registers (R8 `NGPR`). -/
def gprCount : Nat := 16

/-- The number of register-file entries (R8 `NREGS`): IP, RF and the GPRs. -/
def regFileCount : Nat := 2 + gprCount

/-- A bytecode has fewer bytes than this (R8; 92_eei_decisions.md D33). -/
def bytecodeLimit : Nat := 2 ^ 64

/-- The three outcomes of a comparison (10_state.md R22). -/
inductive Relation where
  | less
  | equal
  | greater
  deriving DecidableEq, Repr

/-- `RF_CODE`: the number RF holds for each outcome (10_state.md R22, OPEN parameter D11). -/
structure RfCodes where
  less : Word
  equal : Word
  greater : Word
  deriving DecidableEq, Repr

/-- The code of a relation. -/
def RfCodes.code (c : RfCodes) : Relation → Word
  | .less => c.less
  | .equal => c.equal
  | .greater => c.greater

/-- The constraints of R22: pairwise distinct, all nonzero. -/
abbrev RfCodes.Valid (c : RfCodes) : Prop :=
  c.less ≠ c.equal ∧ c.less ≠ c.greater ∧ c.equal ≠ c.greater ∧
    c.less ≠ 0 ∧ c.equal ≠ 0 ∧ c.greater ≠ 0

/-- The spec's default codes, one bit per relation (R22, D11). -/
def RfCodes.default : RfCodes := { less := 1, equal := 2, greater := 4 }

/-- `UNSET_RF_POLICY`: what `jle` and `jg` do while RF holds NONE (44_branch.md R115, OPEN
parameter D12). -/
inductive UnsetRfPolicy where
  /-- The step raises `RfUnset` and writes nothing. -/
  | fault
  /-- The jump falls through, like a jump whose condition is false. -/
  | notTaken
  deriving DecidableEq, Repr

/-- The two open parameters of R8, fixed for one machine. -/
structure Params where
  rfCodes : RfCodes
  unsetRf : UnsetRfPolicy
  deriving DecidableEq, Repr

/-- DESIGN CHOICE (log 1, log 2): the parameters `State.reset` carries. The codes are the spec's
default; the policy is the one under which the instruction runs. -/
def Params.atReset : Params := { rfCodes := RfCodes.default, unsetRf := .notTaken }

end Sys2Proof.Config
end

