-- ==== Sys2Proof/Syntax.lean ====
section
/-! DEFINITION. The instructions of the CORE as syntax: the nine mnemonics (00_scope.md R2), the
three operand kinds (30_encoding.md R48), the ten admitted forms (R53), and an instruction's raw
shape, a mnemonic with operand payloads, which is what an encoding spells before it is checked. -/

namespace Sys2Proof

/-- A GPR number, 0..15 (30_encoding.md R49). IP and RF are no operands (10_state.md R19). -/
abbrev Reg := Fin 16

/-- The confirmed set of nine mnemonics (00_scope.md R2). -/
inductive Mnemonic where
  | mov | add | inc | xor | cmp | jmp | jle | jg | exit
  deriving DecidableEq, Repr

/-- The three operand kinds (R48). -/
inductive OperandKind where
  | reg
  | imm
  | addr
  deriving DecidableEq, Repr

/-- An operand's payload as an encoding spells it: a register byte, a 64-bit immediate or a 64-bit
absolute byte address (R49, R50, R51). -/
inductive Operand where
  | reg (n : Byte)
  | imm (v : Word)
  | addr (t : Word)
  deriving DecidableEq, Repr

def Operand.kind : Operand → OperandKind
  | .reg _ => .reg
  | .imm _ => .imm
  | .addr _ => .addr

/-- A mnemonic with operands, not yet checked to be one of the admitted forms. -/
structure RawInstr where
  mnemonic : Mnemonic
  operands : List Operand
  deriving DecidableEq, Repr

/-- The admitted forms, one constructor per row of the opcode table (R53). -/
inductive Instr where
  /-- `mov rd, rs` (41_move.md R105). -/
  | movReg (rd rs : Reg)
  /-- `mov rd, imm` (41_move.md R106). -/
  | movImm (rd : Reg) (imm : Word)
  /-- `add rd, rs` (42_alu.md R108). -/
  | add (rd rs : Reg)
  /-- `inc r` (42_alu.md R109). -/
  | inc (r : Reg)
  /-- `xor rd, rs` (42_alu.md R110). -/
  | xor (rd rs : Reg)
  /-- `cmp ra, rb` (43_compare.md R112). -/
  | cmp (ra rb : Reg)
  /-- `jmp target` (44_branch.md R116). -/
  | jmp (target : Word)
  /-- `jle target` (44_branch.md R117). -/
  | jle (target : Word)
  /-- `jg target` (44_branch.md R118). -/
  | jg (target : Word)
  /-- `exit` (45_exit.md R120). -/
  | exit
  deriving DecidableEq, Repr

end Sys2Proof
end

