-- ==== Sys2Proof/WellFormed.lean ====
section
/-! DEFINITION. When a mnemonic with operands is an instruction of the CORE: the operand count, the
admitted forms and the range of register payloads (30_encoding.md R53, R55, R49). An `Instr` has
these by construction; the checks bear on what an encoding or a source line spells. -/

namespace Sys2Proof

/-- The operand count a mnemonic fixes (R55, R76). -/
def Mnemonic.arity : Mnemonic → Nat
  | .mov | .add | .xor | .cmp => 2
  | .inc | .jmp | .jle | .jg => 1
  | .exit => 0

/-- The admitted sequences of operand kinds (R53, R79). -/
def Mnemonic.admits : Mnemonic → List OperandKind → Bool
  | .mov, ks => ks == [.reg, .reg] || ks == [.reg, .imm]
  | .add, ks => ks == [.reg, .reg]
  | .inc, ks => ks == [.reg]
  | .xor, ks => ks == [.reg, .reg]
  | .cmp, ks => ks == [.reg, .reg]
  | .jmp, ks => ks == [.addr]
  | .jle, ks => ks == [.addr]
  | .jg, ks => ks == [.addr]
  | .exit, ks => ks == []

/-- A register payload names a GPR, 0..15 (R49); other payloads are unrestricted. -/
def Operand.inRange : Operand → Bool
  | .reg n => decide (n.toNat < 16)
  | .imm _ => true
  | .addr _ => true

def RawInstr.rightCount (r : RawInstr) : Bool := r.operands.length == r.mnemonic.arity

def RawInstr.rightForm (r : RawInstr) : Bool := r.mnemonic.admits (r.operands.map Operand.kind)

def RawInstr.rightRange (r : RawInstr) : Bool := r.operands.all Operand.inRange

/-- The three checks together. -/
def RawInstr.wellFormed (r : RawInstr) : Bool := r.rightCount && r.rightForm && r.rightRange

/-- The register payload that names a GPR (R49). -/
def Reg.payload (r : Reg) : Byte := BitVec.ofNat 8 r.val

/-- The mnemonic of a form (R53). -/
def Instr.mnemonic : Instr → Mnemonic
  | .movReg .. => .mov
  | .movImm .. => .mov
  | .add .. => .add
  | .inc .. => .inc
  | .xor .. => .xor
  | .cmp .. => .cmp
  | .jmp .. => .jmp
  | .jle .. => .jle
  | .jg .. => .jg
  | .exit => .exit

/-- The operands of a form, in assembly order (R45, R53). -/
def Instr.operands : Instr → List Operand
  | .movReg rd rs => [.reg (Reg.payload rd), .reg (Reg.payload rs)]
  | .movImm rd imm => [.reg (Reg.payload rd), .imm imm]
  | .add rd rs => [.reg (Reg.payload rd), .reg (Reg.payload rs)]
  | .inc r => [.reg (Reg.payload r)]
  | .xor rd rs => [.reg (Reg.payload rd), .reg (Reg.payload rs)]
  | .cmp ra rb => [.reg (Reg.payload ra), .reg (Reg.payload rb)]
  | .jmp t => [.addr t]
  | .jle t => [.addr t]
  | .jg t => [.addr t]
  | .exit => []

/-- An instruction as mnemonic and operands. -/
def Instr.raw (i : Instr) : RawInstr := { mnemonic := i.mnemonic, operands := i.operands }

/-- The checks on an instruction; `Instr` admits no ill-formed one (`Laws.WellFormedInstr`). -/
def Instr.wellFormed (i : Instr) : Bool := i.raw.wellFormed

end Sys2Proof
end

