-- ==== Sys2Proof/Decode.lean ====
section
/-! DEFINITION. The binary encoding of 30_encoding.md Part 1, the decoder of Part 2, total on any
bytes, and after it the encoder written from the same tables. The decoder takes the bytes from the
instruction's offset on and answers the instruction with its width, or the reason of the first
check that fails (R57). -/

namespace Sys2Proof

/-- The reasons of a DecodeError (R58 to R63). The names are the spec's own (R65). -/
inductive DecodeReason where
  | pastEnd
  | badOpcode
  | truncated
  | badDescriptor
  | badForm
  | badRegister
  deriving DecidableEq, Repr

/-- The opcode table (R47): 0x00 and 0x0A..0xFF are illegal. -/
def Mnemonic.ofOpcode (b : Byte) : Option Mnemonic :=
  match b.toNat with
  | 0x01 => some .mov
  | 0x02 => some .add
  | 0x03 => some .inc
  | 0x04 => some .xor
  | 0x05 => some .cmp
  | 0x06 => some .jmp
  | 0x07 => some .jle
  | 0x08 => some .jg
  | 0x09 => some .exit
  | _ => none

/-- The descriptor table (R48): 0x00 and 0x04..0xFF are illegal. -/
def OperandKind.ofDescriptor (b : Byte) : Option OperandKind :=
  match b.toNat with
  | 0x01 => some .reg
  | 0x02 => some .imm
  | 0x03 => some .addr
  | _ => none

/-- The payload widths of R48. -/
def OperandKind.payloadWidth : OperandKind → Nat
  | .reg => 1
  | .imm => 8
  | .addr => 8

/-- The bytes the payloads of some operands take together. -/
def payloadsWidth (ks : List OperandKind) : Nat := (ks.map OperandKind.payloadWidth).sum

/-- The width of an instruction, `1 + n + sum(payload widths)` (R54). -/
def Instr.width (i : Instr) : Nat :=
  1 + i.operands.length + payloadsWidth (i.operands.map Operand.kind)

/-- The longest instruction, `mov reg, imm` (R54; 20_memory.md R36). -/
def maxWidth : Nat := 12

/-- The number a little-endian byte string spells (00_scope.md R9, `LE64` for eight bytes). -/
def leNat : List Byte → Nat
  | [] => 0
  | b :: bs => b.toNat + 256 * leNat bs

/-- `LE64`: the value of an 8-byte payload (R50, R51). -/
def le64 (bs : List Byte) : Word := BitVec.ofNat 64 (leNat (bs.take 8))

/-- A number as `n` bytes, the least significant first. -/
def leBytes : Nat → Nat → List Byte
  | 0, _ => []
  | n + 1, v => BitVec.ofNat 8 v :: leBytes n (v / 256)

/-- A u64 as an 8-byte payload (R50, R51). -/
def le64Bytes (v : Word) : List Byte := leBytes 8 v.toNat

/-- The kinds a run of descriptor bytes spells, none where one of them is illegal (R61). -/
def kindsOf : List Byte → Option (List OperandKind)
  | [] => some []
  | b :: bs =>
    match OperandKind.ofDescriptor b, kindsOf bs with
    | some k, some ks => some (k :: ks)
    | _, _ => none

/-- One payload, read from the front of the bytes. -/
def readPayload (k : OperandKind) (bs : List Byte) : Operand :=
  match k with
  | .reg => .reg (bs.headD 0)
  | .imm => .imm (le64 bs)
  | .addr => .addr (le64 bs)

/-- The payloads of some operands, one after the other with no padding (R45). -/
def readPayloads : List OperandKind → List Byte → List Operand
  | [], _ => []
  | k :: ks, bs => readPayload k bs :: readPayloads ks (bs.drop k.payloadWidth)

/-- The GPR a register payload names, none for 16..255 (R49, R63). -/
def Reg.ofPayload (n : Byte) : Option Reg :=
  if h : n.toNat < 16 then some ⟨n.toNat, h⟩ else none

/-- Two register operands, both in range. -/
def twoRegs (f : Reg → Reg → Instr) (a b : Byte) : Option Instr :=
  match Reg.ofPayload a, Reg.ofPayload b with
  | some x, some y => some (f x y)
  | _, _ => none

/-- The instruction a mnemonic with operands is, none where `RawInstr.wellFormed` fails. -/
def RawInstr.toInstr (r : RawInstr) : Option Instr :=
  match r.mnemonic, r.operands with
  | .mov, [.reg d, .reg s] => twoRegs .movReg d s
  | .mov, [.reg d, .imm v] => (Reg.ofPayload d).map (.movImm · v)
  | .add, [.reg d, .reg s] => twoRegs .add d s
  | .inc, [.reg d] => (Reg.ofPayload d).map .inc
  | .xor, [.reg d, .reg s] => twoRegs .xor d s
  | .cmp, [.reg a, .reg b] => twoRegs .cmp a b
  | .jmp, [.addr t] => some (.jmp t)
  | .jle, [.addr t] => some (.jle t)
  | .jg, [.addr t] => some (.jg t)
  | .exit, [] => some .exit
  | _, _ => none

/-- The checks of R57 after the opcode: `rest` is what follows the opcode byte. -/
def decodeAfterOpcode (m : Mnemonic) (rest : List Byte) : Except DecodeReason (Instr × Nat) :=
  if rest.length < m.arity then .error .truncated
  else
    match kindsOf (rest.take m.arity) with
    | none => .error .badDescriptor
    | some ks =>
      if m.admits ks then
        if (rest.drop m.arity).length < payloadsWidth ks then .error .truncated
        else
          match RawInstr.toInstr
              { mnemonic := m, operands := readPayloads ks (rest.drop m.arity) } with
          | none => .error .badRegister
          | some i => .ok (i, 1 + m.arity + payloadsWidth ks)
      else .error .badForm

/-- The decoder of R57 on the bytes from the instruction's offset on. It reads no byte past the
instruction's width (R55). -/
def decode : List Byte → Except DecodeReason (Instr × Nat)
  | [] => .error .pastEnd
  | op :: rest =>
    match Mnemonic.ofOpcode op with
    | none => .error .badOpcode
    | some m => decodeAfterOpcode m rest

/-- Decoding a run of bytes instruction by instruction, each starting where the one before it ends;
`none` where a decode fails (30_encoding.md R89). The first argument bounds the number of
instructions. -/
def decodeAll : Nat → List Byte → Option (List Instr)
  | _, [] => some []
  | 0, _ :: _ => none
  | n + 1, b :: bs =>
    match decode (b :: bs) with
    | .error _ => none
    | .ok (i, w) => (decodeAll n ((b :: bs).drop w)).map (i :: ·)

/-! The encoder. -/

/-- The opcode byte of a mnemonic (R47). -/
def Mnemonic.opcode : Mnemonic → Byte
  | .mov => 0x01
  | .add => 0x02
  | .inc => 0x03
  | .xor => 0x04
  | .cmp => 0x05
  | .jmp => 0x06
  | .jle => 0x07
  | .jg => 0x08
  | .exit => 0x09

/-- The descriptor byte of an operand kind (R48). -/
def OperandKind.descriptor : OperandKind → Byte
  | .reg => 0x01
  | .imm => 0x02
  | .addr => 0x03

/-- The payload bytes of an operand (R49, R50, R51). -/
def Operand.payload : Operand → List Byte
  | .reg n => [n]
  | .imm v => le64Bytes v
  | .addr t => le64Bytes t

/-- Opcode, then every descriptor, then every payload (R44, R45). -/
def RawInstr.encode (r : RawInstr) : List Byte :=
  r.mnemonic.opcode ::
    (r.operands.map (fun o => o.kind.descriptor) ++ r.operands.flatMap Operand.payload)

/-- The bytes of an instruction. -/
def encode (i : Instr) : List Byte := i.raw.encode

/-! The numbers of spec/opcode_table.json (log 8). -/

/-- Bytes as an instruction's place holds them, zeros above them up to the longest instruction. -/
def padInstr (bs : List Byte) : List Byte := bs ++ List.replicate (maxWidth - bs.length) 0

/-- A match value's bytes, the most significant first. Leading zero bytes are dropped: no row's opcode
is 0x00 (R47), so they are places of the row that its match value does not reach. -/
def matchBytes (n w : Nat) : List Byte := (leBytes n w).reverse.dropWhile (· == 0)

/-- Whether bytes decode to an instruction of exactly `n` bytes. -/
def decodesToWidth (bs : List Byte) (n : Nat) : Bool :=
  match decode bs with
  | .ok (_, w) => w == n
  | .error _ => false

/-- The bytes a number of `nbits` bits stands for. A number that covers a whole instruction is read
with its first byte in bits 7..0. Every other number is one of the table's match values, which cover
the opcode and descriptor bytes and are written lowest offset first, so that the first byte is
the most significant (opcode_table.json `match_note`); the payload bytes are zero. -/
def tableBytes (nbits w : Nat) : List Byte :=
  let n := nbits / 8
  if decodesToWidth (padInstr (leBytes n w)) n then padInstr (leBytes n w)
  else padInstr (matchBytes n w)

/-- The instruction the decoder reads from an opcode-table number. -/
def decodeTableWord (nbits w : Nat) : Option Instr :=
  match decode (tableBytes nbits w) with
  | .ok (i, _) => some i
  | .error _ => none

end Sys2Proof
end

