-- ==== Sys2Proof/Machine/State.lean ====
section
/-! DEFINITION. The state of the CORE as plain data: every piece of 10_state.md, beside the two open
parameters of 00_scope.md R8, and the reasons a step can stop. -/

namespace Sys2Proof.Machine

open Sys2Proof.Config

/-- The instruction space (20_memory.md R32): a length, `len(B)`, and the bytes below it. Only
nonzero bytes are listed, at strictly rising addresses (`Memory.wf`), so equal bytecodes are equal
data (log 5). -/
structure Memory where
  len : Nat
  cells : List Host.Cell
  deriving DecidableEq, Repr

/-- What an address that `cells` does not list reads as: 0x00 inside the bytecode; at or past its
end the address does not exist (R32, R37). -/
def Memory.unlisted (len a : Nat) : Option Byte := if a < len then some 0#8 else none

/-- The canonical form of a list of cells from address `lo` on. -/
def Memory.cellsWf (len : Nat) : Nat → List Host.Cell → Bool
  | _, [] => true
  | lo, (a, b) :: cs => decide (lo ≤ a) && decide (a < len) && (b != 0#8) && cellsWf len (a + 1) cs

/-- The canonical form: addresses strictly rising and below the length, no zero byte listed. -/
def Memory.wf (m : Memory) : Bool := cellsWf m.len 0 m.cells

/-- The machine. -/
structure State where
  /-- IP, register-file index 0 (10_state.md R18): the byte offset of the next instruction. -/
  ip : Word
  /-- RF, register-file index 1 (R21): NONE (0) or the code of the last comparison (R22). -/
  rf : Word
  /-- R0..R15, register-file indices 2..17 (R15, R16, R17). -/
  gpr : Vector Word 16
  /-- The cycle counter (R24, R25). -/
  cycle : Word
  /-- The halted flag (R26). -/
  halted : Bool
  /-- The bound bytecode B (R27). -/
  bytecode : Memory
  /-- Whether a VM exists (R28). -/
  vmPresent : Bool
  /-- The machine's open parameters (R22, 44_branch.md R115). Not state of the spec: nothing writes
  them. -/
  params : Params
  deriving DecidableEq, Repr

/-- Why a step stops with an error of the machine: the RuntimeErrors of 60_exceptions.md R123. Each
writes nothing and returns to the host (R124, R133). -/
inductive Fault where
  /-- `DecodeError(reason)`, raised by the fetch (30_encoding.md R57). Safe: the spec's own error. -/
  | decodeError (reason : DecodeReason)
  /-- `RfUnset`, raised by `jle` and `jg` while RF is NONE under the policy `fault` (R125). Safe: it
  is the narrower of the two behaviours the spec leaves open (D12). -/
  | rfUnset
  deriving DecidableEq, Repr

/-- Why a step or a host operation is turned away. -/
inductive Refusal where
  /-- An instruction without a meaning, raised by `exec`. Safe. No arm raises it. -/
  | notModelled (mnemonic : String)
  /-- `NoVm`: there is no VM yet (60_exceptions.md R129), raised by `step` and by the host operations.
  Safe: the spec's own refusal. -/
  | noVm
  /-- `init_vm` with 2^64 bytes or more, raised by the host operation (93_implementation_defined.md
  I16, `refuse`). Safe: the case is outside the spec. -/
  | bytecodeTooLong
  deriving DecidableEq, Repr

/-- An empty bytecode: nothing listed. -/
def Memory.empty : Memory := { len := 0, cells := [] }

/-- The state after `init_vm` of the empty bytecode, for given parameters (R31, R143). -/
def State.resetWith (p : Params) : State where
  ip := 0
  rf := 0
  gpr := Vector.replicate 16 0
  cycle := 0
  halted := false
  bytecode := Memory.empty
  vmPresent := true
  params := p

/-- The machine right after reset (R31): `init_vm` with nothing bound yet (log 3). -/
def State.reset : State := State.resetWith Params.atReset

/-- The machine before the first `init_vm` (R28, 70_reset_and_hazards.md R147): no VM. The other
fields hold nothing that any operation shows (log 3). -/
def State.powerOn (p : Params) : State := { State.resetWith p with vmPresent := false }

end Sys2Proof.Machine
end

