-- ==== Sys2Proof/Machine/Ops.lean ====
section
/-! DEFINITION. The named operations over the bytecode, the registers and the step's common part:
fetch and decode, retirement, raising a RuntimeError, and `init_vm`. -/

namespace Sys2Proof.Machine

open Sys2Proof.Config

/-! ## The bytecode (20_memory.md) -/

/-- The byte a list of cells gives for an address. -/
def Memory.lookup : List Host.Cell → Nat → Option Byte
  | [], _ => none
  | (a, b) :: cs, x => if x = a then some b else lookup cs x

/-- `FetchByte(a)` (00_scope.md R11): the byte at an offset of B, none at or past `len(B)`. -/
def Memory.read (m : Memory) (a : Nat) : Option Byte :=
  if a < m.len then
    match lookup m.cells a with
    | some b => some b
    | none => unlisted m.len a
  else unlisted m.len a

/-- The cells of some bytes standing from an address on. -/
def Memory.cellsOf : Nat → List Byte → List Host.Cell
  | _, [] => []
  | a, b :: bs => if b = 0#8 then cellsOf (a + 1) bs else (a, b) :: cellsOf (a + 1) bs

/-- A byte sequence as a bytecode: its bytes at offsets 0, 1, … (R32). -/
def Memory.ofBytes (bs : List Byte) : Memory := { len := bs.length, cells := cellsOf 0 bs }

/-- A list of cells with one byte changed, in canonical form. -/
def Memory.setCell : List Host.Cell → Nat → Byte → List Host.Cell
  | [], x, v => if v = 0#8 then [] else [(x, v)]
  | (a, b) :: cs, x, v =>
    if x < a then (if v = 0#8 then (a, b) :: cs else (x, v) :: (a, b) :: cs)
    else if x = a then (if v = 0#8 then cs else (x, v) :: cs)
    else (a, b) :: setCell cs x v

/-- A bytecode with one byte placed, made longer where the offset lies past its end. No instruction
does this (R41); it serves `withFetchWord`. -/
def Memory.place (m : Memory) (x : Nat) (v : Byte) : Memory :=
  { len := max m.len (x + 1), cells := setCell m.cells x v }

/-- A bytecode with a run of bytes placed from an offset on. -/
def Memory.placeAll (m : Memory) : Nat → List Byte → Memory
  | _, [] => m
  | x, b :: bs => (m.place x b).placeAll (x + 1) bs

/-- Up to `n` bytes from an offset on, fewer where the bytecode ends. -/
def Memory.window (m : Memory) : Nat → Nat → List Byte
  | _, 0 => []
  | a, n + 1 =>
    match m.read a with
    | some b => b :: m.window (a + 1) n
    | none => []

/-- `Decode(B, ip)` (30_encoding.md R57). The decoder needs no byte past the longest instruction
(log 7). -/
def Memory.decodeAt (m : Memory) (a : Nat) : Except DecodeReason (Instr × Nat) :=
  decode (m.window a maxWidth)

/-- The fetch and decode at IP (40_execution_cycle.md R91). -/
def State.fetchDecode (s : State) : Except DecodeReason (Instr × Nat) :=
  s.bytecode.decodeAt s.ip.toNat

/-! ## The registers (10_state.md R10, R15) -/

/-- `R(n)`. -/
def State.readGpr (s : State) (r : Reg) : Word := s.gpr[r]

/-- `R(n) <- v`. -/
def State.writeGpr (s : State) (r : Reg) (v : Word) : State := { s with gpr := s.gpr.set r v }

/-- `x[i]` for a register-file index: 0 is IP, 1 is RF, n + 2 is R(n) (R15). -/
def State.readFile (s : State) (i : Fin 18) : Word :=
  if i.val = 0 then s.ip
  else if i.val = 1 then s.rf
  else s.readGpr (Fin.ofNat 16 (i.val - 2))

/-- `RF <- v`. -/
def State.writeRf (s : State) (v : Word) : State := { s with rf := v }

/-! ## The step's common part (40_execution_cycle.md R90) -/

/-- The fall-through address, IP + width (R93). A fetched instruction ends at or before `len(B)`, so
the sum does not wrap on one (10_state.md R20, log 10). -/
def State.nextIp (s : State) (width : Nat) : Word := s.ip + BitVec.ofNat 64 width

/-- Retirement: IP takes its new value and one cycle is counted, modulo 2^64 (R93, R94; 10_state.md
R25). -/
def State.retire (s : State) (newIp : Word) : State := { s with ip := newIp, cycle := s.cycle + 1 }

/-- Retirement that falls through to the next instruction. -/
def State.advance (s : State) (i : Instr) : State := s.retire (s.nextIp i.width)

/-- Raising a RuntimeError, the CORE's only exception entry: no register, flag, counter or mode is
written, no handler entered, and the error goes to the host (60_exceptions.md R124, R133). There is
no return from it but `init_vm` (R134). -/
def State.raise (_s : State) (f : Fault) : Host.Outcome State Fault Refusal := .fault f

/-- `init_vm(bytecode)`: the full reset (70_reset_and_hazards.md R143, R145). Only the parameters of
the machine stay. -/
def State.initVm (s : State) (bs : List Byte) : State :=
  { State.resetWith s.params with bytecode := Memory.ofBytes bs }

/-- A state that fetches the given bytes next: a VM that is present and not halted, with the bytes
placed at IP. -/
def State.placeAtIp (s : State) (bs : List Byte) : State :=
  { s with bytecode := s.bytecode.placeAll s.ip.toNat bs, halted := false, vmPresent := true }

end Sys2Proof.Machine
end

