-- ==== Sys2Proof/Machine/Operands.lean ====
section
/-! DEFINITION. The operand forms (30_encoding.md R48): a register, read or written, a 64-bit
immediate, and an absolute address. An operand's value is read in the state before the instruction
(00_scope.md R12). -/

namespace Sys2Proof.Machine

/-- The value of a register source (R49). -/
def regSource (r : Reg) (s : State) : Word := s.readGpr r

/-- The value of an immediate source: the payload as encoded, with no extension (R50). -/
def immSource (imm : Word) : Word := imm

/-- A jump's target: an absolute byte offset, not relative, scaled, masked or checked (R51,
44_branch.md R113). -/
def jumpTarget (t : Word) : Word := t

/-- An instruction that writes one GPR and falls through (40_execution_cycle.md R90): the value was
read in the state before any write. -/
def writeRegAndAdvance (i : Instr) (rd : Reg) (v : Word) (s : State) :
    Host.Outcome State Fault Refusal :=
  .next ((s.writeGpr rd v).advance i)

end Sys2Proof.Machine
end

