-- ==== Sys2Proof/Machine/Alu.lean ====
section
/-! DEFINITION. Arithmetic and logic (42_alu.md). All of it is modulo 2^64 and none of it writes RF
(R107; 10_state.md R21). -/

namespace Sys2Proof.Machine

/-- `a +_64 b = (a + b) mod 2^64` (R107). -/
def add64 (a b : Word) : Word := BitVec.ofNat 64 ((a.toNat + b.toNat) % 2 ^ 64)

/-- `add rd, rs`: R(rd) <- R(rd) +_64 R(rs) (R108). -/
def execAdd (rd rs : Reg) (s : State) : Host.Outcome State Fault Refusal :=
  writeRegAndAdvance (.add rd rs) rd (add64 (regSource rd s) (regSource rs s)) s

/-- `inc r`: R(r) <- R(r) +_64 1 (R109). -/
def execInc (r : Reg) (s : State) : Host.Outcome State Fault Refusal :=
  writeRegAndAdvance (.inc r) r (add64 (regSource r s) 1) s

/-- `xor rd, rs`: R(rd) <- R(rd) ^ R(rs) (R110). -/
def execXor (rd rs : Reg) (s : State) : Host.Outcome State Fault Refusal :=
  writeRegAndAdvance (.xor rd rs) rd (regSource rd s ^^^ regSource rs s) s

end Sys2Proof.Machine
end

