-- ==== Sys2Proof/Machine/Flags.lean ====
section
/-! DEFINITION. The flags register RF: what `cmp` records in it and what the conditional jumps read
from it (10_state.md R21 to R23; 43_compare.md; 44_branch.md R114, R115). -/

namespace Sys2Proof.Machine

open Sys2Proof.Config

/-- The unsigned relation of two values (43_compare.md R111, R112). -/
def relationOf (a b : Word) : Relation :=
  if a.toNat < b.toNat then .less
  else if a.toNat = b.toNat then .equal
  else .greater

/-- `RF_CODE` on this machine (10_state.md R22). -/
def State.rfCode (s : State) (rel : Relation) : Word := s.params.rfCodes.code rel

/-- RF takes the code of the relation of two values (43_compare.md R112). -/
def State.recordComparison (s : State) (a b : Word) : State :=
  s.writeRf (s.rfCode (relationOf a b))

/-- RF holds NONE (R22). -/
def State.rfIsNone (s : State) : Bool := s.rf == 0

/-- The condition of `jle`: RF holds LESS or EQUAL (44_branch.md R114, R117). -/
def State.rfSaysLessOrEqual (s : State) : Bool :=
  s.rf == s.rfCode .less || s.rf == s.rfCode .equal

/-- The condition of `jg`: RF holds GREATER (R114, R118). -/
def State.rfSaysGreater (s : State) : Bool := s.rf == s.rfCode .greater

/-- A conditional jump (R115, R117, R118): while RF is NONE the policy decides; else the jump goes
to its target where the condition holds and falls through where it does not. -/
def conditionalJump (i : Instr) (condition : Bool) (target : Word) (s : State) :
    Host.Outcome State Fault Refusal :=
  if s.rfIsNone then
    match s.params.unsetRf with
    | .fault => s.raise .rfUnset
    | .notTaken => .next (s.advance i)
  else if condition then .next (s.retire target)
  else .next (s.advance i)

end Sys2Proof.Machine
end

