-- ==== Sys2Proof/Machine/Branch.lean ====
section
/-! DEFINITION. Control transfer (44_branch.md). A target is not checked when the jump executes
(R113). -/

namespace Sys2Proof.Machine

/-- `jmp target`: IP <- target (R116). -/
def execJmp (t : Word) (s : State) : Host.Outcome State Fault Refusal :=
  .next (s.retire (jumpTarget t))

/-- `jle target`: taken when the last comparison found a ≤ b (R117). -/
def execJle (t : Word) (s : State) : Host.Outcome State Fault Refusal :=
  conditionalJump (.jle t) s.rfSaysLessOrEqual (jumpTarget t) s

/-- `jg target`: taken when the last comparison found a > b (R118). -/
def execJg (t : Word) (s : State) : Host.Outcome State Fault Refusal :=
  conditionalJump (.jg t) s.rfSaysGreater (jumpTarget t) s

end Sys2Proof.Machine
end

