-- ==== Sys2Proof/Machine/Compare.lean ====
section
/-! DEFINITION. Comparison (43_compare.md). -/

namespace Sys2Proof.Machine

/-- `cmp ra, rb`: RF <- the code of the unsigned relation of R(ra) to R(rb) (R112). -/
def execCmp (ra rb : Reg) (s : State) : Host.Outcome State Fault Refusal :=
  .next ((s.recordComparison (regSource ra s) (regSource rb s)).advance (.cmp ra rb))

end Sys2Proof.Machine
end

