-- ==== Sys2Proof/Machine/Exit.lean ====
section
/-! DEFINITION. Program termination (45_exit.md). -/

namespace Sys2Proof.Machine

/-- `exit`: a normal retirement, IP + 1 (90_conflicts.md C1), after which the halted flag is set
(R120; 40_execution_cycle.md R95). -/
def execExit (s : State) : Host.Outcome State Fault Refusal :=
  .next { s.advance .exit with halted := true }

end Sys2Proof.Machine
end

