-- ==== Sys2Proof/Machine/Move.lean ====
section
/-! DEFINITION. Data movement (41_move.md). -/

namespace Sys2Proof.Machine

/-- `mov rd, rs`: R(rd) <- R(rs) (R105). -/
def execMovReg (rd rs : Reg) (s : State) : Host.Outcome State Fault Refusal :=
  writeRegAndAdvance (.movReg rd rs) rd (regSource rs s) s

/-- `mov rd, imm`: R(rd) <- imm (R106). -/
def execMovImm (rd : Reg) (imm : Word) (s : State) : Host.Outcome State Fault Refusal :=
  writeRegAndAdvance (.movImm rd imm) rd (immSource imm) s

end Sys2Proof.Machine
end

