-- ==== Sys2Proof/Machine/Dispatch.lean ====
section
/-! DEFINITION. One arm per instruction, each a call of its meaning. -/

namespace Sys2Proof.Machine

/-- The `Exec` arm of an instruction with the writes of its retirement (40_execution_cycle.md R90). -/
def exec (i : Instr) (s : State) : Host.Outcome State Fault Refusal :=
  match i with
  | .movReg rd rs => Sys2Proof.Machine.execMovReg rd rs s
  | .movImm rd imm => Sys2Proof.Machine.execMovImm rd imm s
  | .add rd rs => Sys2Proof.Machine.execAdd rd rs s
  | .inc r => Sys2Proof.Machine.execInc r s
  | .xor rd rs => Sys2Proof.Machine.execXor rd rs s
  | .cmp ra rb => Sys2Proof.Machine.execCmp ra rb s
  | .jmp t => Sys2Proof.Machine.execJmp t s
  | .jle t => Sys2Proof.Machine.execJle t s
  | .jg t => Sys2Proof.Machine.execJg t s
  | .exit => Sys2Proof.Machine.execExit s

end Sys2Proof.Machine
end

