-- ==== Sys2Proof/Machine/Cycle.lean ====
section
/-! DEFINITION. `Step()` of 40_execution_cycle.md R90: fetch and decode at IP, then execute. It
presumes a VM that is present and not halted. -/

namespace Sys2Proof.Machine

/-- One retirement, or a RuntimeError that writes nothing (R91, R92). -/
def State.retireOne (s : State) : Host.Outcome State Fault Refusal :=
  match s.fetchDecode with
  | .error r => s.raise (.decodeError r)
  | .ok (i, _) => exec i s

/-- The machine's step with the guards of 60_exceptions.md R131: no VM is refused, a halted VM
changes nothing (40_execution_cycle.md R96, R102), else one instruction retires or an error is
raised. -/
def State.guardedStep (s : State) : Host.Outcome State Fault Refusal :=
  if s.vmPresent then
    if s.halted then .next s else s.retireOne
  else .refused .noVm

end Sys2Proof.Machine
end

