-- ==== Sys2Proof/Machine/Step.lean ====
section
/-! DEFINITION. The step of the machine, and the state whose next step runs a given instruction. -/

namespace Sys2Proof.Machine

/-- One step: what `single_step` does to the machine (40_execution_cycle.md R96; log 4). -/
def step (s : State) : Host.Outcome State Fault Refusal := s.guardedStep

/-- `s` with an instruction where `step` fetches its next one, in the numbering of
`decodeTableWord`. -/
def State.withFetchWord (s : State) (nbits w : Nat) : State := s.placeAtIp (tableBytes nbits w)

end Sys2Proof.Machine
end

