-- ==== Sys2Proof/Machine/Assembler.lean ====
section
/-! DEFINITION. The assembler of 30_encoding.md Part 3: `compile`, a pure function from source text to
bytecode or to one CompileError. Source text is the bytes of the UTF-8 text (R66, R86, log 9). -/

namespace Sys2Proof.Machine

/-- Source text, a line, a token, a label name. -/
abbrev Text := List Byte

/-- The complete list of CompileError kinds (R84). -/
inductive CompileErrorKind where
  | unknownMnemonic
  | wrongOperandCount
  | wrongOperandKind
  | malformedOperand
  | reservedRegister
  | immediateOutOfRange
  | malformedLabel
  | labelIsRegisterName
  | duplicateLabel
  | undefinedLabel (name : Text)
  deriving DecidableEq, Repr

/-- A CompileError: the 1-based line it concerns and its kind (R84). The message text is free (log
14). -/
structure CompileError where
  line : Nat
  kind : CompileErrorKind
  deriving DecidableEq, Repr

/-! ## Characters -/

/-- An ASCII character as a byte. -/
def charByte (c : Char) : Byte := BitVec.ofNat 8 c.toNat

/-- The bytes of an ASCII string. -/
def ascii (s : String) : Text := s.toList.map charByte

/-- Space and tab only (R71). -/
def isSpace (b : Byte) : Bool := b == 0x20 || b == 0x09

def isDigit (b : Byte) : Bool := decide (0x30 ≤ b.toNat) && decide (b.toNat ≤ 0x39)

def isUpper (b : Byte) : Bool := decide (0x41 ≤ b.toNat) && decide (b.toNat ≤ 0x5A)

def isLower (b : Byte) : Bool := decide (0x61 ≤ b.toNat) && decide (b.toNat ≤ 0x7A)

/-- `[A-Za-z_]` (R72). -/
def isIdentStart (b : Byte) : Bool := isUpper b || isLower b || b == 0x5F

/-- `[A-Za-z0-9_]` (R72). -/
def isIdentChar (b : Byte) : Bool := isIdentStart b || isDigit b

/-- An ASCII letter in lower case. -/
def toLower (b : Byte) : Byte := if isUpper b then b + 0x20 else b

/-- The identifier syntax `[A-Za-z_][A-Za-z0-9_]*` (R72). -/
def isIdent : Text → Bool
  | [] => false
  | c :: cs => isIdentStart c && cs.all isIdentChar

/-! ## Lexing -/

/-- The pieces of a text between the occurrences of a separator. -/
def splitOn (sep : Byte) : Text → List Text
  | [] => [[]]
  | c :: cs =>
    if c = sep then [] :: splitOn sep cs
    else
      match splitOn sep cs with
      | [] => [[c]]
      | l :: ls => (c :: l) :: ls

/-- The lines of a source, split at LF (R69). -/
def sourceLines (src : Text) : List Text := splitOn 0x0A src

/-- One CR at the end of a line is removed (R69). -/
def stripCr (line : Text) : Text := if line.getLast? = some 0x0D then line.dropLast else line

/-- The first `;` and everything after it are removed (R70). -/
def stripComment (line : Text) : Text := line.takeWhile (· != 0x3B)

/-- Leading and trailing white space is removed (R71). -/
def trim (t : Text) : Text := ((t.dropWhile isSpace).reverse.dropWhile isSpace).reverse

/-- What a line is (R71, R72, R74). -/
inductive LineItem where
  | blank
  /-- A label declaration, by its name. -/
  | label (name : Text)
  /-- An instruction line: its mnemonic token and its trimmed operand text. -/
  | instruction (mnemonic operands : Text)
  deriving DecidableEq, Repr

/-- A line's class, from its text after comment removal and trimming. -/
def classifyLine (t : Text) : LineItem :=
  if t = [] then .blank
  else if t.getLast? = some 0x3A then .label t.dropLast
  else
    .instruction (t.takeWhile (fun b => !isSpace b)) (trim (t.dropWhile (fun b => !isSpace b)))

/-- A source line's class (R69 to R74). -/
def lexLine (line : Text) : LineItem := classifyLine (trim (stripComment (stripCr line)))

/-! ## Parsing -/

/-- The nine mnemonics, in lower case exactly (R75). -/
def mnemonicOf (tok : Text) : Option Mnemonic :=
  if tok = ascii "mov" then some .mov
  else if tok = ascii "add" then some .add
  else if tok = ascii "inc" then some .inc
  else if tok = ascii "xor" then some .xor
  else if tok = ascii "cmp" then some .cmp
  else if tok = ascii "jmp" then some .jmp
  else if tok = ascii "jle" then some .jle
  else if tok = ascii "jg" then some .jg
  else if tok = ascii "exit" then some .exit
  else none

/-- The operand tokens of an operand text, each trimmed (R74). -/
def operandTokens (text : Text) : List Text :=
  if text = [] then [] else (splitOn 0x2C text).map trim

/-- An operand of a source line (R77). -/
inductive AsmOperand where
  | reg (n : Reg)
  | imm (v : Word)
  | label (name : Text)
  deriving DecidableEq, Repr

def AsmOperand.kind : AsmOperand → OperandKind
  | .reg _ => .reg
  | .imm _ => .imm
  | .label _ => .addr

/-- `r` or `R`. -/
def isR (b : Byte) : Bool := b == 0x72 || b == 0x52

/-- `[rR](1[0-5]|[0-9])`: the GPR a token names (R77 test 1). -/
def registerOf : Text → Option Reg
  | [c, d] => if isR c && isDigit d then Reg.ofPayload (d - 0x30) else none
  | [c, t, d] =>
    if isR c && t == 0x31 && isDigit d then Reg.ofPayload (d - 0x30 + 10) else none
  | _ => none

/-- `ip` or `rf` in any letter case (R77 test 2, R73). -/
def isReservedName (tok : Text) : Bool :=
  tok.map toLower == ascii "ip" || tok.map toLower == ascii "rf"

/-- `r` or `R` followed by one or more decimal digits (R73). -/
def isRegisterSpelling : Text → Bool
  | c :: d :: ds => isR c && (d :: ds).all isDigit
  | _ => false

/-- The number a run of decimal digits spells. -/
def decimalValue (ds : Text) : Nat := ds.foldl (fun n d => 10 * n + (d.toNat - 0x30)) 0

/-- `[0-9]+`. -/
def isDecimal (ds : Text) : Bool := !ds.isEmpty && ds.all isDigit

/-- `-?[0-9]+`: the integer a token spells (R77 test 3, R78). -/
def literalOf : Text → Option Int
  | [] => none
  | c :: cs =>
    if c = 0x2D then (if isDecimal cs then some (-(decimalValue cs : Int)) else none)
    else if isDecimal (c :: cs) then some (decimalValue (c :: cs) : Int)
    else none

/-- The range of R78, [−2^63, 2^64 − 1]. -/
def literalInRange (v : Int) : Bool := decide (-(2 ^ 63) ≤ v) && decide (v ≤ 2 ^ 64 - 1)

/-- The class of an operand token, by the first test that it passes (R77). -/
def classifyOperand (tok : Text) : Except CompileErrorKind AsmOperand :=
  match registerOf tok with
  | some r => .ok (.reg r)
  | none =>
    if isReservedName tok then .error .reservedRegister
    else
      match literalOf tok with
      | some v =>
        if literalInRange v then .ok (.imm (BitVec.ofInt 64 v)) else .error .immediateOutOfRange
      | none => if isIdent tok then .ok (.label tok) else .error .malformedOperand

/-- Operands are classified left to right; the first failure is reported (R77). -/
def classifyOperands : List Text → Except CompileErrorKind (List AsmOperand)
  | [] => .ok []
  | t :: ts =>
    match classifyOperand t with
    | .error k => .error k
    | .ok o =>
      match classifyOperands ts with
      | .error k => .error k
      | .ok os => .ok (o :: os)

/-- An instruction line, checked in the order of R85: mnemonic, empty operand token, operand count,
operand classes, form. -/
def parseInstruction (mn operands : Text) : Except CompileErrorKind (Mnemonic × List AsmOperand) :=
  match mnemonicOf mn with
  | none => .error .unknownMnemonic
  | some m =>
    if (operandTokens operands).any List.isEmpty then .error .malformedOperand
    else if (operandTokens operands).length ≠ m.arity then .error .wrongOperandCount
    else
      match classifyOperands (operandTokens operands) with
      | .error k => .error k
      | .ok os =>
        if m.admits (os.map AsmOperand.kind) then .ok (m, os) else .error .wrongOperandKind

/-! ## The two passes -/

/-- The symbol table: label names with their byte offsets (R83). It holds no name twice. -/
abbrev SymbolTable := List (Text × Nat)

/-- The offset of a name, none where it is not declared. -/
def SymbolTable.find (sym : SymbolTable) (name : Text) : Option Nat := List.lookup name sym

/-- The checks on a label declaration, in the order of R72 and R73. -/
def labelError (sym : SymbolTable) (name : Text) : Option CompileErrorKind :=
  if !isIdent name then some .malformedLabel
  else if isReservedName name || isRegisterSpelling name then some .labelIsRegisterName
  else if (sym.find name).isSome then some .duplicateLabel
  else none

/-- A parsed instruction with its source line (R80). -/
structure AsmInstr where
  line : Nat
  mnemonic : Mnemonic
  operands : List AsmOperand
  deriving DecidableEq, Repr

/-- The width, known before any label's value (R54, R80). -/
def AsmInstr.width (a : AsmInstr) : Nat :=
  1 + a.operands.length + payloadsWidth (a.operands.map AsmOperand.kind)

/-- What pass 1 finds: the instruction list, the symbol table and the total length. -/
structure Assembly where
  insts : List AsmInstr
  sym : SymbolTable
  total : Nat
  deriving DecidableEq, Repr

/-- Pass 1 from line number `ln`, byte offset `off` and a symbol table on (R80). -/
def pass1 (ln off : Nat) (sym : SymbolTable) : List Text → Except CompileError Assembly
  | [] => .ok { insts := [], sym := sym, total := off }
  | l :: ls =>
    match lexLine l with
    | .blank => pass1 (ln + 1) off sym ls
    | .label name =>
      match labelError sym name with
      | some k => .error { line := ln, kind := k }
      | none => pass1 (ln + 1) off ((name, off) :: sym) ls
    | .instruction mn operands =>
      match parseInstruction mn operands with
      | .error k => .error { line := ln, kind := k }
      | .ok (m, os) =>
        let a : AsmInstr := { line := ln, mnemonic := m, operands := os }
        match pass1 (ln + 1) (off + a.width) sym ls with
        | .error e => .error e
        | .ok asm => .ok { asm with insts := a :: asm.insts }

/-- An operand with its label replaced by the label's offset (R82). -/
def AsmOperand.resolve (sym : SymbolTable) : AsmOperand → Except CompileErrorKind Operand
  | .reg n => .ok (.reg (Reg.payload n))
  | .imm v => .ok (.imm v)
  | .label name =>
    match sym.find name with
    | some off => .ok (.addr (BitVec.ofNat 64 off))
    | none => .error (.undefinedLabel name)

/-- The operands of an instruction, the first undefined label reported. -/
def resolveOperands (sym : SymbolTable) : List AsmOperand → Except CompileErrorKind (List Operand)
  | [] => .ok []
  | o :: os =>
    match o.resolve sym with
    | .error k => .error k
    | .ok p =>
      match resolveOperands sym os with
      | .error k => .error k
      | .ok ps => .ok (p :: ps)

/-- An instruction with its labels resolved. -/
def AsmInstr.resolve (sym : SymbolTable) (a : AsmInstr) : Except CompileErrorKind RawInstr :=
  match resolveOperands sym a.operands with
  | .error k => .error k
  | .ok ps => .ok { mnemonic := a.mnemonic, operands := ps }

/-- Pass 2: the encodings of the instructions in order, with no gaps (R82). -/
def pass2 (sym : SymbolTable) : List AsmInstr → Except CompileError (List Byte)
  | [] => .ok []
  | a :: rest =>
    match a.resolve sym with
    | .error k => .error { line := a.line, kind := k }
    | .ok raw =>
      match pass2 sym rest with
      | .error e => .error e
      | .ok bs => .ok (raw.encode ++ bs)

/-- `compile` (R66): pass 2 runs only where pass 1 finds no error (R85). -/
def compile (src : Text) : Except CompileError (List Byte) :=
  match pass1 1 0 [] (sourceLines src) with
  | .error e => .error e
  | .ok asm => pass2 asm.sym asm.insts

end Sys2Proof.Machine
end

