-- ==== Sys2Proof/Machine/HostOps.lean ====
section
/-! DEFINITION. The six host operations (00_scope.md R3): each is one command with one response,
performed one at a time (R7; 60_exceptions.md R122, R140). -/

namespace Sys2Proof.Machine

open Sys2Proof.Config

/-- The outcomes of 60_exceptions.md R122 and R123. -/
inductive Response where
  /-- `()`, of `init_vm` and `execute`. -/
  | done
  /-- `single_step` retired one instruction. -/
  | continued
  /-- `single_step` on a halted VM; not an error (R128). -/
  | halted
  /-- A DecodeError or RfUnset (R124). -/
  | runtimeError (f : Fault)
  /-- The number `read_reg` or `get_cycle` returns. -/
  | value (v : Word)
  /-- `read_reg` outside 0..17 (R126). -/
  | indexError
  /-- `NoVm` (R129), or a bytecode outside the spec. -/
  | refused (r : Refusal)
  /-- `compile` succeeded. -/
  | bytecode (bs : List Byte)
  /-- `compile` failed (R127). -/
  | compileError (e : CompileError)
  deriving DecidableEq, Repr

/-- The host's commands. A register index is any integer (40_execution_cycle.md R99). -/
inductive Command where
  | compile (src : Text)
  | initVm (bs : List Byte)
  | execute
  | singleStep
  | readReg (index : Int)
  | getCycle
  deriving DecidableEq, Repr

/-- `single_step()` (40_execution_cycle.md R96): its response and the state it leaves. An error
leaves the state as it was (60_exceptions.md R124). -/
def singleStep (s : State) : Response × State :=
  if s.vmPresent then
    if s.halted then (.halted, s)
    else
      match s.retireOne with
      | .next t => (.continued, t)
      | .fault f => (.runtimeError f, s)
      | .refused r => (.refused r, s)
  else (.refused .noVm, s)

/-- `execute()` (R97) within a number of retirements; `none` where it has not returned by then. A run
that never ends is `none` for every number (R98). -/
def executeFor : Nat → State → Option (Response × State)
  | 0, s =>
    if s.vmPresent then (if s.halted then some (.done, s) else none)
    else some (.refused .noVm, s)
  | n + 1, s =>
    if s.vmPresent then
      if s.halted then some (.done, s)
      else
        match s.retireOne with
        | .next t => executeFor n t
        | .fault f => some (.runtimeError f, s)
        | .refused r => some (.refused r, s)
    else some (.refused .noVm, s)

/-- Calling `single_step` until it answers something other than `Continued`, within a number of
calls (R101). -/
def singleStepUntil : Nat → State → Option (Response × State)
  | 0, _ => none
  | n + 1, s =>
    match singleStep s with
    | (.continued, t) => singleStepUntil n t
    | (r, t) => some (r, t)

/-- `execute` returns this response and leaves this state. -/
def Executes (s : State) (r : Response) (t : State) : Prop := ∃ n, executeFor n s = some (r, t)

/-- `execute` never returns (R98). -/
def ExecuteHangs (s : State) : Prop := ∀ n, executeFor n s = none

/-- `read_reg(index)` (R99). -/
def readReg (index : Int) (s : State) : Response :=
  if s.vmPresent then
    if 0 ≤ index ∧ index < 18 then .value (s.readFile (Fin.ofNat 18 index.toNat))
    else .indexError
  else .refused .noVm

/-- `get_cycle()` (R100). -/
def getCycle (s : State) : Response :=
  if s.vmPresent then .value s.cycle else .refused .noVm

/-- `init_vm(bytes)` (70_reset_and_hazards.md R143, R144). A bytecode of 2^64 bytes or more is
outside the spec (93_implementation_defined.md I16). -/
def initVmOp (bs : List Byte) (s : State) : Response × State :=
  if bs.length < bytecodeLimit then (.done, s.initVm bs) else (.refused .bytecodeTooLong, s)

/-- `compile(source)` as an operation: it touches no VM state (30_encoding.md R66). -/
def compileOp (src : Text) : Response :=
  match compile src with
  | .ok bs => .bytecode bs
  | .error e => .compileError e

/-- One host operation. The number bounds the retirements of `execute`; `none` where `execute` has
not returned by then. -/
def perform (fuel : Nat) (c : Command) (s : State) : Option (Response × State) :=
  match c with
  | .compile src => some (compileOp src, s)
  | .initVm bs => some (initVmOp bs s)
  | .execute => executeFor fuel s
  | .singleStep => some (singleStep s)
  | .readReg i => some (readReg i s, s)
  | .getCycle => some (getCycle s, s)

/-- A sequence of host operations, one after the other (60_exceptions.md R140). -/
def performAll (fuel : Nat) : List Command → State → Option (List Response × State)
  | [], s => some ([], s)
  | c :: cs, s =>
    match perform fuel c s with
    | none => none
    | some (r, t) => (performAll fuel cs t).map (fun p => (r :: p.1, p.2))

end Sys2Proof.Machine
end

