-- ==== Sys2Proof/Safety.lean ====
section
/-! DEFINITION. What claims are stated in: the invariant of the machine, retirements and runs of
them, and what a run leaves unchanged. -/

namespace Sys2Proof.Machine

open Sys2Proof.Config

/-- RF holds one of the four values of 10_state.md R22. -/
def State.RfLegal (s : State) : Prop := s.rf = 0 ∨ ∃ rel, s.rf = s.rfCode rel

/-- What holds of every state the machine can be in: the bytecode is in canonical form and shorter
than 2^64 bytes (00_scope.md R8), the parameters meet their constraints and RF holds a legal value
(10_state.md R22). -/
structure State.Inv (s : State) : Prop where
  bytecodeWf : s.bytecode.wf = true
  bytecodeShort : s.bytecode.len < bytecodeLimit
  codesValid : s.params.rfCodes.Valid
  rfLegal : s.RfLegal

/-- The VM may retire an instruction: it is present and not halted (40_execution_cycle.md R90). -/
def State.Running (s : State) : Prop := s.vmPresent = true ∧ s.halted = false

/-- The bytes of an instruction stand in the bytecode at an offset. -/
def Memory.Holds (m : Memory) (a : Nat) (bs : List Byte) : Prop :=
  ∀ k, k < bs.length → m.read (a + k) = bs[k]?

/-- One retirement: the running VM goes from `s` to `t` by retiring `i`. -/
def Retires (s : State) (i : Instr) (t : State) : Prop :=
  s.Running ∧ (∃ w, s.fetchDecode = .ok (i, w)) ∧ exec i s = .next t

/-- A run that retires the instructions of a list, one after the other. -/
def RetiresAll (s : State) : List Instr → State → Prop
  | [], t => t = s
  | i :: is, t => ∃ u, Retires s i u ∧ RetiresAll u is t

/-- Every byte of the instruction space reads as before, and it ends where it did. -/
def SameBytecode (s t : State) : Prop :=
  t.bytecode.len = s.bytecode.len ∧ ∀ a, t.bytecode.read a = s.bytecode.read a

/-- Everything but the GPRs, RF, IP, the cycle counter and the halted flag is as before. -/
def SameMachine (s t : State) : Prop :=
  SameBytecode s t ∧ t.vmPresent = s.vmPresent ∧ t.params = s.params

/-- An instruction whose only result is a GPR: every other register, RF, the halted flag and the
bytecode are as before, one cycle is counted and IP falls through by `width`. -/
def WritesOnlyGpr (s t : State) (rd : Reg) (v : Word) (width : Nat) : Prop :=
  t.readGpr rd = v ∧ (∀ r, r ≠ rd → t.readGpr r = s.readGpr r) ∧ t.rf = s.rf ∧
    t.ip = s.ip + BitVec.ofNat 64 width ∧ t.cycle = s.cycle + 1 ∧ t.halted = s.halted ∧
    SameMachine s t

/-- A jump's whole effect: IP is `newIp` and one cycle is counted. -/
def MovesOnlyIp (s t : State) (newIp : Word) : Prop :=
  t.ip = newIp ∧ t.cycle = s.cycle + 1 ∧ (∀ r, t.readGpr r = s.readGpr r) ∧ t.rf = s.rf ∧
    t.halted = s.halted ∧ SameMachine s t

/-- `cmp`'s whole effect: RF takes a value, one cycle is counted and IP falls through by `width`. -/
def WritesOnlyRf (s t : State) (v : Word) (width : Nat) : Prop :=
  t.rf = v ∧ (∀ r, t.readGpr r = s.readGpr r) ∧ t.ip = s.ip + BitVec.ofNat 64 width ∧
    t.cycle = s.cycle + 1 ∧ t.halted = s.halted ∧ SameMachine s t

/-- The GPR an instruction writes, if any (10_state.md R15). -/
def gprDest : Instr → Option Reg
  | .movReg rd _ => some rd
  | .movImm rd _ => some rd
  | .add rd _ => some rd
  | .inc r => some r
  | .xor rd _ => some rd
  | .cmp _ _ => none
  | .jmp _ => none
  | .jle _ => none
  | .jg _ => none
  | .exit => none

/-- The instruction is a `cmp`, the only one that writes RF (10_state.md R21). -/
def IsCmp : Instr → Prop
  | .cmp _ _ => True
  | _ => False

/-- The instruction is a conditional jump, the only ones that read RF (10_state.md R21). -/
def IsConditionalJump : Instr → Prop
  | .jle _ => True
  | .jg _ => True
  | _ => False

/-- The target of a jump (44_branch.md R113). -/
def targetOf : Instr → Option Word
  | .jmp t => some t
  | .jle t => some t
  | .jg t => some t
  | _ => none

/-- The bytes some instructions take together. -/
def widthSum (is : List Instr) : Nat := (is.map Instr.width).sum

/-- The command resets the VM. -/
def Command.IsInit : Command → Prop
  | .initVm _ => True
  | _ => False

/-- A safe run of `n` steps: no error and no refusal. -/
def SafeFor (n : Nat) (s : State) : Prop := ∃ t, Host.Core.run Sys2Proof.core n s = .next t

end Sys2Proof.Machine
end

