-- ==== Sys2Proof/Certificates/Slice0/Obligations.lean ====
section
/-! DEFINITION. The statements about the model. Each docstring names the rule it formalises. A statement
about every state holds for every choice of the open parameters, which the state carries. -/

open Sys2Proof Sys2Proof.Machine Sys2Proof.Config

/-! ## Encoding and decoding -/

/-- R53: the ten admitted forms with their opcodes, descriptors and widths, and no others. -/
def Obligations.AdmittedFormsAreTheTen : Prop :=
  (∀ m ks, Mnemonic.admits m ks = true ↔
    (m, ks) ∈ [(Mnemonic.mov, [OperandKind.reg, OperandKind.reg]),
      (Mnemonic.mov, [OperandKind.reg, OperandKind.imm]),
      (Mnemonic.add, [OperandKind.reg, OperandKind.reg]), (Mnemonic.inc, [OperandKind.reg]),
      (Mnemonic.xor, [OperandKind.reg, OperandKind.reg]),
      (Mnemonic.cmp, [OperandKind.reg, OperandKind.reg]), (Mnemonic.jmp, [OperandKind.addr]),
      (Mnemonic.jle, [OperandKind.addr]), (Mnemonic.jg, [OperandKind.addr]),
      (Mnemonic.exit, [])]) ∧
  (∀ d s : Reg,
    encode (.movReg d s) = [0x01, 0x01, 0x01, Reg.payload d, Reg.payload s] ∧
    encode (.add d s) = [0x02, 0x01, 0x01, Reg.payload d, Reg.payload s] ∧
    encode (.inc d) = [0x03, 0x01, Reg.payload d] ∧
    encode (.xor d s) = [0x04, 0x01, 0x01, Reg.payload d, Reg.payload s] ∧
    encode (.cmp d s) = [0x05, 0x01, 0x01, Reg.payload d, Reg.payload s] ∧
    (Instr.movReg d s).width = 5 ∧ (Instr.add d s).width = 5 ∧ (Instr.inc d).width = 3 ∧
    (Instr.xor d s).width = 5 ∧ (Instr.cmp d s).width = 5) ∧
  (∀ (d : Reg) (v : Word),
    encode (.movImm d v) = [0x01, 0x01, 0x02, Reg.payload d] ++ le64Bytes v ∧
    encode (.jmp v) = [0x06, 0x03] ++ le64Bytes v ∧
    encode (.jle v) = [0x07, 0x03] ++ le64Bytes v ∧
    encode (.jg v) = [0x08, 0x03] ++ le64Bytes v ∧
    (Instr.movImm d v).width = 12 ∧ (Instr.jmp v).width = 10 ∧ (Instr.jle v).width = 10 ∧
    (Instr.jg v).width = 10) ∧
  encode .exit = [0x09] ∧ Instr.exit.width = 1

/-- R50 and R51: a 64-bit payload is eight bytes, byte `k` holding bits 8k+7..8k of the value, and
it reads back as that value. -/
def Obligations.PayloadsAreLittleEndian : Prop :=
  ∀ v : Word,
    (le64Bytes v).length = 8 ∧
    (∀ k, k < 8 → (le64Bytes v)[k]? = some (v.extractLsb' (8 * k) 8)) ∧
    (∀ rest, le64 (le64Bytes v ++ rest) = v)

/-- Words written out from the spec's own encodings decode to the instructions they stand for
(95_test_vectors.md V1, V3, V13, V15, V16, V26, V32, W2, W1, V35). -/
def Obligations.SpecWordsDecode : Prop :=
  decode [0x01, 0x01, 0x01, 0x00, 0x01] = .ok (.movReg 0 1, 5) ∧
  decode [0x01, 0x01, 0x02, 0x03, 0x2A, 0, 0, 0, 0, 0, 0, 0] = .ok (.movImm 3 42, 12) ∧
  decode [0x02, 0x01, 0x01, 0x0F, 0x00] = .ok (.add 15 0, 5) ∧
  decode [0x03, 0x01, 0x0F] = .ok (.inc 15, 3) ∧
  decode [0x04, 0x01, 0x01, 0x00, 0x01] = .ok (.xor 0 1, 5) ∧
  decode [0x05, 0x01, 0x01, 0x02, 0x02] = .ok (.cmp 2 2, 5) ∧
  decode [0x06, 0x03, 0x36, 0x01, 0, 0, 0, 0, 0, 0] = .ok (.jmp 310, 10) ∧
  decode [0x07, 0x03, 0x33, 0, 0, 0, 0, 0, 0, 0] = .ok (.jle 51, 10) ∧
  decode [0x08, 0x03, 0x33, 0, 0, 0, 0, 0, 0, 0] = .ok (.jg 51, 10) ∧
  decode [0x09, 0x09] = .ok (.exit, 1)

/-- Decode and encode agree: whatever bytes follow, the encoding of an instruction decodes to it, with
its width, for every value of every operand (30_encoding.md Parts 1 and 2). -/
def Obligations.DecodeOfEncode : Prop :=
  ∀ (i : Instr) (rest : List Byte), decode (encode i ++ rest) = .ok (i, i.width)

/-- R56, last sentence: every byte string decodes to exactly one admitted form with its operand
values, or raises a DecodeError. What decodes is the encoding of the instruction, so no two
instructions share a word and no other word decodes to one. -/
def Obligations.DecodedBytesAreTheEncoding : Prop :=
  ∀ (bs : List Byte),
    (∃ r, decode bs = .error r) ∨
    (∃ i, decode bs = .ok (i, i.width) ∧ bs.take i.width = encode i ∧ i.width ≤ bs.length ∧
      ∀ j, bs.take j.width = encode j → j = i)

/-- The decode checks of a running VM at IP (30_encoding.md R57 to R63, 60_exceptions.md R131 (3)), each
clause with the conditions under which the checks before it pass. The names of the reasons and the
order of the checks are the spec's own decision (30_encoding.md R65, D25; log 19), and R65 says that
a model must not rely on which reason is reported: this statement does name them. -/
def Obligations.DecodeChecksInOrder : Prop :=
  ∀ (s : State), s.Running →
    (s.bytecode.len ≤ s.ip.toNat → step s = .fault (.decodeError .pastEnd)) ∧
    (∀ op, s.bytecode.read s.ip.toNat = some op → (op.toNat = 0 ∨ 0x0A ≤ op.toNat) →
      step s = .fault (.decodeError .badOpcode)) ∧
    (∀ m : Mnemonic, s.bytecode.read s.ip.toNat = some m.opcode →
      (s.bytecode.len < s.ip.toNat + 1 + m.arity → step s = .fault (.decodeError .truncated)) ∧
      (∀ k d, s.ip.toNat + 1 + m.arity ≤ s.bytecode.len → k < m.arity →
        s.bytecode.read (s.ip.toNat + 1 + k) = some d → (d.toNat = 0 ∨ 0x04 ≤ d.toNat) →
        step s = .fault (.decodeError .badDescriptor)) ∧
      (∀ ks : List OperandKind, ks.length = m.arity →
        s.bytecode.Holds (s.ip.toNat + 1) (ks.map OperandKind.descriptor) →
        (m.admits ks = false → step s = .fault (.decodeError .badForm)) ∧
        (m.admits ks = true →
          s.bytecode.len < s.ip.toNat + 1 + m.arity + payloadsWidth ks →
          step s = .fault (.decodeError .truncated)) ∧
        (∀ k n, m.admits ks = true →
          s.ip.toNat + 1 + m.arity + payloadsWidth ks ≤ s.bytecode.len →
          ks[k]? = some .reg →
          s.bytecode.read (s.ip.toNat + 1 + m.arity + payloadsWidth (ks.take k)) = some n →
          16 ≤ n.toNat → step s = .fault (.decodeError .badRegister))))

/-- R57: the model's fetch window loses nothing. Fetching from a bound bytecode is decoding all of its
bytes from the offset on (log 7). -/
def Obligations.FetchDecodesTheWholeRest : Prop :=
  ∀ (bs : List Byte) (a : Nat), (Memory.ofBytes bs).decodeAt a = decode (bs.drop a)

/-! ## What each instruction does -/

/-- R105: `mov rd, rs`, in every state and for every pair of registers, the same one included. -/
def Obligations.MovRegCopies : Prop :=
  ∀ (rd rs : Reg) (s : State),
    encode (.movReg rd rs) = [0x01, 0x01, 0x01, Reg.payload rd, Reg.payload rs] ∧
    ∃ t, exec (.movReg rd rs) s = .next t ∧ WritesOnlyGpr s t rd (s.readGpr rs) 5

/-- The register effect of `mov rd, imm` (41_move.md R106): the 64-bit value as encoded. -/
def Obligations.MovImmLoads : Prop :=
  ∀ (rd : Reg) (imm : Word) (s : State),
    encode (.movImm rd imm) = [0x01, 0x01, 0x02, Reg.payload rd] ++ le64Bytes imm ∧
    ∃ t, exec (.movImm rd imm) s = .next t ∧ WritesOnlyGpr s t rd imm 12

/-- R108: `add rd, rs` adds modulo 2^64; there is no immediate form, in bytecode or in source. -/
def Obligations.AddWrapsModulo : Prop :=
  (∀ (rd rs : Reg) (s : State),
    encode (.add rd rs) = [0x02, 0x01, 0x01, Reg.payload rd, Reg.payload rs] ∧
    ∃ t, exec (.add rd rs) s = .next t ∧
      (t.readGpr rd).toNat = ((s.readGpr rd).toNat + (s.readGpr rs).toNat) % 2 ^ 64 ∧
      WritesOnlyGpr s t rd (t.readGpr rd) 5) ∧
  (∀ rest, decode ([0x02, 0x01, 0x02] ++ rest) = .error .badForm) ∧
  compile (ascii "add r1, 5") = .error { line := 1, kind := .wrongOperandKind }

/-- R109: `inc r` adds one modulo 2^64. -/
def Obligations.IncWrapsModulo : Prop :=
  ∀ (r : Reg) (s : State),
    encode (.inc r) = [0x03, 0x01, Reg.payload r] ∧
    ∃ t, exec (.inc r) s = .next t ∧
      (t.readGpr r).toNat = ((s.readGpr r).toNat + 1) % 2 ^ 64 ∧
      WritesOnlyGpr s t r (t.readGpr r) 3

/-- R110: `xor rd, rs` bit by bit; with one register twice it clears it. -/
def Obligations.XorIsBitwise : Prop :=
  ∀ (rd rs : Reg) (s : State),
    encode (.xor rd rs) = [0x04, 0x01, 0x01, Reg.payload rd, Reg.payload rs] ∧
    ∃ t, exec (.xor rd rs) s = .next t ∧
      (∀ k, k < 64 → (t.readGpr rd).getLsbD k =
        Bool.xor ((s.readGpr rd).getLsbD k) ((s.readGpr rs).getLsbD k)) ∧
      (rd = rs → t.readGpr rd = 0) ∧
      WritesOnlyGpr s t rd (t.readGpr rd) 5

/-- R112: `cmp ra, rb` records the unsigned relation in RF through `RF_CODE` and writes nothing else. -/
def Obligations.CmpRecordsUnsignedRelation : Prop :=
  ∀ (ra rb : Reg) (s : State),
    encode (.cmp ra rb) = [0x05, 0x01, 0x01, Reg.payload ra, Reg.payload rb] ∧
    ∃ t, exec (.cmp ra rb) s = .next t ∧ WritesOnlyRf s t t.rf 5 ∧
      ((s.readGpr ra).toNat < (s.readGpr rb).toNat → t.rf = s.params.rfCodes.less) ∧
      ((s.readGpr ra).toNat = (s.readGpr rb).toNat → t.rf = s.params.rfCodes.equal) ∧
      ((s.readGpr rb).toNat < (s.readGpr ra).toNat → t.rf = s.params.rfCodes.greater)

/-- R113: a taken jump sets IP to its target exactly, whatever the target is; the fetch after it is
from the target, and raises PastEnd where the target lies at or past `len(B)`. -/
def Obligations.TakenJumpSetsIpToTarget : Prop :=
  ∀ (i : Instr) (target : Word) (s : State), targetOf i = some target →
    ((∃ t, i = .jmp t) ∨
      ((∃ t, i = .jle t) ∧ s.rf ≠ 0 ∧
        (s.rf = s.params.rfCodes.less ∨ s.rf = s.params.rfCodes.equal)) ∨
      ((∃ t, i = .jg t) ∧ s.rf ≠ 0 ∧ s.rf = s.params.rfCodes.greater)) →
    ∃ u, exec i s = .next u ∧ u.ip = target ∧
      u.fetchDecode = s.bytecode.decodeAt target.toNat ∧
      (u.Running → s.bytecode.len ≤ target.toNat → step u = .fault (.decodeError .pastEnd))

/-- R116: `jmp target` moves IP and nothing else; a `jmp` to its own offset never lets `execute`
return, `single_step` answering Continued with the cycle counter rising; a `jmp` to `len(B)`
retires and the next step raises PastEnd. -/
def Obligations.JmpMovesIp : Prop :=
  (∀ (target : Word) (s : State),
    encode (.jmp target) = [0x06, 0x03] ++ le64Bytes target ∧
    ∃ t, exec (.jmp target) s = .next t ∧ MovesOnlyIp s t target) ∧
  (∀ (s : State), s.Running → s.bytecode.Holds s.ip.toNat (encode (.jmp s.ip)) →
    ExecuteHangs s ∧
    ∃ t, singleStep s = (.continued, t) ∧ t.ip = s.ip ∧ t.cycle = s.cycle + 1) ∧
  (∀ (s : State) (target : Word), s.Running →
    s.bytecode.Holds s.ip.toNat (encode (.jmp target)) → target.toNat = s.bytecode.len →
    ∃ t, step s = .next t ∧ step t = .fault (.decodeError .pastEnd))

/-- R117: `jle target` in every state: NONE by the policy, LESS and EQUAL taken, else not. -/
def Obligations.JleJumpsOnLessOrEqual : Prop :=
  ∀ (target : Word) (s : State),
    encode (.jle target) = [0x07, 0x03] ++ le64Bytes target ∧
    (s.rf = 0 → s.params.unsetRf = .fault → exec (.jle target) s = .fault .rfUnset) ∧
    (s.rf = 0 → s.params.unsetRf = .notTaken →
      ∃ t, exec (.jle target) s = .next t ∧ MovesOnlyIp s t (s.ip + 10)) ∧
    (s.rf ≠ 0 → (s.rf = s.params.rfCodes.less ∨ s.rf = s.params.rfCodes.equal) →
      ∃ t, exec (.jle target) s = .next t ∧ MovesOnlyIp s t target) ∧
    (s.rf ≠ 0 → s.rf ≠ s.params.rfCodes.less → s.rf ≠ s.params.rfCodes.equal →
      ∃ t, exec (.jle target) s = .next t ∧ MovesOnlyIp s t (s.ip + 10))

/-- R118: `jg target` in every state: NONE by the policy, GREATER taken, else not. -/
def Obligations.JgJumpsOnGreater : Prop :=
  ∀ (target : Word) (s : State),
    encode (.jg target) = [0x08, 0x03] ++ le64Bytes target ∧
    (s.rf = 0 → s.params.unsetRf = .fault → exec (.jg target) s = .fault .rfUnset) ∧
    (s.rf = 0 → s.params.unsetRf = .notTaken →
      ∃ t, exec (.jg target) s = .next t ∧ MovesOnlyIp s t (s.ip + 10)) ∧
    (s.rf ≠ 0 → s.rf = s.params.rfCodes.greater →
      ∃ t, exec (.jg target) s = .next t ∧ MovesOnlyIp s t target) ∧
    (s.rf ≠ 0 → s.rf ≠ s.params.rfCodes.greater →
      ∃ t, exec (.jg target) s = .next t ∧ MovesOnlyIp s t (s.ip + 10))

/-- R120: `exit` retires normally, IP one past it, and sets the halted flag; the `single_step` that
retires it answers Continued, and after it `single_step` answers Halted and `execute` returns, both
without change. -/
def Obligations.ExitHaltsAfterRetiring : Prop :=
  (∀ (s : State), encode .exit = [0x09] ∧
    ∃ t, exec .exit s = .next t ∧ t.halted = true ∧ t.ip = s.ip + 1 ∧ t.cycle = s.cycle + 1 ∧
      (∀ r, t.readGpr r = s.readGpr r) ∧ t.rf = s.rf ∧ SameMachine s t) ∧
  (∀ (s : State), s.Running → s.bytecode.read s.ip.toNat = some 0x09 →
    ∃ t, exec .exit s = .next t ∧ singleStep s = (.continued, t) ∧ singleStep t = (.halted, t) ∧
      ∀ n, executeFor n t = some (.done, t))

/-! ## What instructions leave unchanged -/

/-- The frame of every instruction: exec's next state keeps every GPR but the destination, RF but for
`cmp`, the halted flag but for `exit`, and every byte of the bytecode; no form stores to it
(10_state.md R15, R21, R26, R27). -/
def Obligations.ExecFrame : Prop :=
  ∀ (i : Instr) (s t : State), exec i s = .next t →
    (∀ r, gprDest i ≠ some r → t.readGpr r = s.readGpr r) ∧
    (¬ IsCmp i → t.rf = s.rf) ∧
    (i ≠ .exit → t.halted = s.halted) ∧
    SameMachine s t

/-- Only the conditional jumps read RF (10_state.md R21): executed in two states that differ in RF
alone, any other instruction leaves states that differ in RF at most. -/
def Obligations.OnlyConditionalJumpsReadRf : Prop :=
  ∀ (i : Instr) (s t : State) (v : Word), ¬ IsConditionalJump i → exec i s = .next t →
    ∃ t', exec i (s.writeRf v) = .next t' ∧ t'.writeRf 0 = t.writeRf 0 ∧
      (IsCmp i → t'.rf = t.rf)

/-- R93: the IP update of every instruction that retires. -/
def Obligations.IpUpdate : Prop :=
  ∀ (s t : State) (i : Instr), Retires s i t →
    (∀ target, i = .jmp target → t.ip = target) ∧
    (∀ target, i = .jle target → t.ip =
      if s.rf ≠ 0 ∧ (s.rf = s.params.rfCodes.less ∨ s.rf = s.params.rfCodes.equal) then target
      else s.ip + 10) ∧
    (∀ target, i = .jg target → t.ip =
      if s.rf ≠ 0 ∧ s.rf = s.params.rfCodes.greater then target else s.ip + 10) ∧
    (targetOf i = none → t.ip = s.ip + BitVec.ofNat 64 (encode i).length)

/-- IP never wraps (10_state.md R20): under the invariant a fetched instruction ends at or before
`len(B)`, so IP + width is the exact sum. -/
def Obligations.IpNeverWraps : Prop :=
  ∀ (s : State) (i : Instr) (w : Nat), s.Inv → s.fetchDecode = .ok (i, w) →
    s.ip.toNat + w ≤ s.bytecode.len ∧ (s.nextIp w).toNat = s.ip.toNat + w

/-! ## The step -/

/-- A step of a running VM is exec of the instruction its bytes at IP decode to; exec itself moves IP
and counts the cycle (40_execution_cycle.md R90, R91). -/
def Obligations.StepRunsTheDecodedInstruction : Prop :=
  ∀ (s : State) (i : Instr) (w : Nat), s.Running → s.fetchDecode = .ok (i, w) →
    step s = exec i s

/-- The same from the bytes: where an instruction's encoding stands in B at IP, whatever stands
after it, the step is exec of that instruction. -/
def Obligations.BytesAtIpRun : Prop :=
  ∀ (s : State) (i : Instr), s.Running → s.bytecode.Holds s.ip.toNat (encode i) →
    step s = exec i s ∧ s.fetchDecode = .ok (i, i.width)

/-- R94: every step of a running VM that does not raise retires one instruction and adds exactly 1
to the cycle counter, modulo 2^64. -/
def Obligations.EveryRetirementCountsOneCycle : Prop :=
  ∀ (s t : State), s.Running → step s = .next t →
    (∃ i, Retires s i t) ∧ t.cycle.toNat = (s.cycle.toNat + 1) % 2 ^ 64

/-- R125: `RfUnset` is raised by `jle` or `jg` executing while RF is 0, under the policy `fault`, and by
nothing else; the step that raises it leaves the state as it was. No instruction raises any other
error or is refused. -/
def Obligations.RfUnsetExactlyUnderFaultPolicy : Prop :=
  ∀ (i : Instr) (s : State),
    (exec i s = .fault .rfUnset ↔
      IsConditionalJump i ∧ s.rf = 0 ∧ s.params.unsetRf = .fault) ∧
    (∀ w, s.Running → s.fetchDecode = .ok (i, w) → exec i s = .fault .rfUnset →
      singleStep s = (.runtimeError .rfUnset, s)) ∧
    (∀ f, exec i s = .fault f → f = .rfUnset) ∧
    (∀ r, exec i s ≠ .refused r)

/-- R114: after a `cmp a, b`, in any later state with the same RF, `jle` is taken exactly when
a ≤ b and `jg` exactly when b < a, unsigned, so exactly one of the two is taken. Neither writes RF. -/
def Obligations.BranchesDecideTheComparison : Prop :=
  ∀ (s t u : State) (ra rb : Reg) (target : Word), s.params.rfCodes.Valid →
    exec (.cmp ra rb) s = .next t → u.rf = t.rf → u.params = t.params →
    ∃ vle vg, exec (.jle target) u = .next vle ∧ exec (.jg target) u = .next vg ∧
      vle.ip = (if (s.readGpr ra).toNat ≤ (s.readGpr rb).toNat then target else u.ip + 10) ∧
      vg.ip = (if (s.readGpr rb).toNat < (s.readGpr ra).toNat then target else u.ip + 10) ∧
      vle.rf = u.rf ∧ vg.rf = u.rf

/-! ## Runs -/

/-- R103: when the halted flag becomes true after `init_vm`, the cycle counter is the number of
instructions retired, `exit` counted, modulo 2^64, and IP is the `exit`'s own offset plus 1. -/
def Obligations.CycleCountAtHalt : Prop :=
  ∀ (s t : State) (bs : List Byte) (is : List Instr),
    RetiresAll (s.initVm bs) is t → t.halted = true →
    t.cycle.toNat = is.length % 2 ^ 64 ∧
    ∃ js u, is = js ++ [.exit] ∧ RetiresAll (s.initVm bs) js u ∧ Retires u .exit t ∧
      t.ip = u.ip + 1

/-- R23: RF changes by `cmp` and `init_vm` only. Every other host operation only retires
instructions, and a run without a `cmp` keeps RF. -/
def Obligations.OnlyCmpAndInitChangeRf : Prop :=
  ∀ (fuel : Nat) (c : Command) (s t : State) (r : Response), ¬ c.IsInit →
    perform fuel c s = some (r, t) →
    ∃ is, RetiresAll s is t ∧ ((∀ i ∈ is, ¬ IsCmp i) → t.rf = s.rf)

/-- R121: retiring `exit` is the only way to set the halted flag; a run that ends in an error is not
halted. -/
def Obligations.OnlyExitSetsHalted : Prop :=
  (∀ (fuel : Nat) (c : Command) (s t : State) (r : Response), s.halted = false →
    perform fuel c s = some (r, t) → t.halted = true →
    ∃ is u, RetiresAll s is u ∧ Retires u .exit t) ∧
  (∀ (n : Nat) (s t : State) (f : Fault), executeFor n s = some (.runtimeError f, t) →
    t.halted = false)

/-- R124: a RuntimeError writes nothing. `execute` stops in the state of the last retired instruction;
from there the same error is raised again by `single_step` and `execute`, and no sequence of
operations without `init_vm` changes the state. -/
def Obligations.RuntimeErrorWritesNothing : Prop :=
  (∀ (s t : State) (f : Fault), singleStep s = (.runtimeError f, t) → t = s) ∧
  (∀ (n : Nat) (s t : State) (f : Fault), executeFor n s = some (.runtimeError f, t) →
    (∃ is, RetiresAll s is t) ∧ t.halted = false ∧ singleStep t = (.runtimeError f, t) ∧
    (∀ k, executeFor (k + 1) t = some (.runtimeError f, t)) ∧
    (∀ (fuel : Nat) (cs : List Command), (∀ c ∈ cs, ¬ c.IsInit) →
      ∃ rs, performAll (fuel + 1) cs t = some (rs, t)))

/-- Once halted, `single_step` answers Halted, `execute` returns, and no sequence of operations without
`init_vm` changes anything (40_execution_cycle.md R102, R96, R97). The clause `step s = .next s` is
the model's own reading, not a rule's: R90's `Step()` requires `halted = false` (log 4). -/
def Obligations.ExitFinality : Prop :=
  ∀ (s : State), s.vmPresent = true → s.halted = true →
    singleStep s = (.halted, s) ∧ (∀ n, executeFor n s = some (.done, s)) ∧ step s = .next s ∧
    (∀ (fuel : Nat) (cs : List Command), (∀ c ∈ cs, ¬ c.IsInit) →
      ∃ rs, performAll fuel cs s = some (rs, s))

/-- R101: `execute` and calling `single_step` until it answers something other than Continued end in
the same state, `execute` returning where the loop sees Halted, and both stopping on the same error. -/
def Obligations.ExecuteEqualsSingleSteps : Prop :=
  ∀ (s t : State),
    ((∃ n, executeFor n s = some (.done, t)) ↔ (∃ n, singleStepUntil n s = some (.halted, t))) ∧
    (∀ f, (∃ n, executeFor n s = some (.runtimeError f, t)) ↔
      (∃ n, singleStepUntil n s = some (.runtimeError f, t)))

/-- R98: `execute` never returns exactly when a present VM retires for ever without halting. -/
def Obligations.ExecuteHangsExactlyOnEndlessRuns : Prop :=
  ∀ (s : State), ExecuteHangs s ↔
    s.vmPresent = true ∧
      ∀ n, ∃ is t, is.length = n ∧ RetiresAll s is t ∧ t.halted = false

/-! ## Host operations -/

/-- R143 and R31: the state after `init_vm`. The bytecode reads as the bytes given at every offset and
has their length; nothing is left unspecified. -/
def Obligations.InitVmSetsEverything : Prop :=
  ∀ (s : State) (bs : List Byte),
    (∀ i, (s.initVm bs).readFile i = 0) ∧ (s.initVm bs).ip = 0 ∧ (s.initVm bs).rf = 0 ∧
    (∀ r, (s.initVm bs).readGpr r = 0) ∧ (s.initVm bs).cycle = 0 ∧
    (s.initVm bs).halted = false ∧ (s.initVm bs).vmPresent = true ∧
    (s.initVm bs).bytecode.len = bs.length ∧
    (∀ a, (s.initVm bs).bytecode.read a = bs[a]?) ∧
    (bs.length < 2 ^ 64 → initVmOp bs s = (.done, s.initVm bs))

/-- R145: nothing survives `init_vm` but the machine's parameters; the second of two calls with the same
bytes changes nothing. -/
def Obligations.InitVmDiscardsThePreviousVm : Prop :=
  ∀ (s s' : State) (bs bs' : List Byte),
    (s.params = s'.params → s.initVm bs = s'.initVm bs) ∧
    (s.initVm bs').initVm bs = s.initVm bs ∧
    ((s.initVm bs).initVm bs) = s.initVm bs

/-- R99 and R126: `read_reg` on any integer. -/
def Obligations.ReadRegByIndex : Prop :=
  ∀ (s : State), s.vmPresent = true →
    readReg 0 s = .value s.ip ∧ readReg 1 s = .value s.rf ∧
    (∀ r : Reg, readReg ((r.val : Int) + 2) s = .value (s.readGpr r)) ∧
    (∀ i : Int, (i < 0 ∨ 17 < i) → readReg i s = .indexError) ∧
    (∀ (fuel : Nat) (i : Int), ∃ r, perform fuel (.readReg i) s = some (r, s))

/-- `get_cycle` on a VM (40_execution_cycle.md R100), and the four operations that need one without it
(60_exceptions.md R129, 10_state.md R28): nothing but `init_vm` changes anything then. `compile` works
in either state (10_state.md R28, 30_encoding.md R66). The clause `step s = .refused .noVm` is the
model's own, not a rule's (log 4). -/
def Obligations.WithoutVmOperationsAreRefused : Prop :=
  (∀ (s : State), s.vmPresent = true → getCycle s = .value s.cycle ∧
    ∀ fuel, perform fuel .getCycle s = some (.value s.cycle, s)) ∧
  (∀ (s : State), s.vmPresent = false →
    step s = .refused .noVm ∧ singleStep s = (.refused .noVm, s) ∧
    (∀ n, executeFor n s = some (.refused .noVm, s)) ∧
    (∀ i, readReg i s = .refused .noVm) ∧ getCycle s = .refused .noVm ∧
    (∀ (fuel : Nat) (cs : List Command), (∀ c ∈ cs, ¬ c.IsInit) →
      ∃ rs, performAll fuel cs s = some (rs, s))) ∧
  (∀ (s : State) (fuel : Nat) (src : Text),
    perform fuel (.compile src) s = some (compileOp src, s))

/-- R28 and R41: once a VM is present it stays present; no operation but `init_vm` changes the
bytecode; and no operation at all changes the machine's parameters (the last clause is the
model's own, log 1 and log 2). -/
def Obligations.BytecodeChangesByInitVmOnly : Prop :=
  ∀ (fuel : Nat) (cs : List Command) (s t : State) (rs : List Response),
    performAll fuel cs s = some (rs, t) →
    (s.vmPresent = true → t.vmPresent = true) ∧ t.params = s.params ∧
    ((∀ c ∈ cs, ¬ c.IsInit) → t.bytecode = s.bytecode ∧ t.vmPresent = s.vmPresent)

/-! ## The invariant -/

/-- The invariant holds after reset, at power on and after `init_vm` of any bytecode of fewer than
2^64 bytes, for every choice of codes that meets its constraints. The codes and the empty bytecode
of `State.reset` are the model's choice (log 1, log 3). -/
def Obligations.InvAtResetAndInit : Prop :=
  State.reset.Inv ∧
  (∀ p : Params, p.rfCodes.Valid → (State.resetWith p).Inv ∧ (State.powerOn p).Inv) ∧
  (∀ (s : State) (bs : List Byte), s.params.rfCodes.Valid → bs.length < 2 ^ 64 →
    (s.initVm bs).Inv)

/-- Every step keeps the invariant: the bytecode stays in canonical form and below 2^64 bytes, the
codes stay valid, and RF stays one of the four values of R22. -/
def Obligations.StepKeepsInv : Prop :=
  ∀ (s t : State), s.Inv → step s = .next t → t.Inv

/-- Every sequence of host operations keeps the invariant, whatever bytes and source it is given. -/
def Obligations.HostOperationsKeepInv : Prop :=
  ∀ (fuel : Nat) (cs : List Command) (s t : State) (rs : List Response), s.Inv →
    performAll fuel cs s = some (rs, t) → t.Inv

/-- Equal bytecodes are equal data: two in canonical form that have one length and read alike at
every offset are the same (log 5). -/
def Obligations.CanonicalBytecodeIsUnique : Prop :=
  ∀ (m m' : Memory), m.wf = true → m'.wf = true → m.len = m'.len →
    (∀ a, m.read a = m'.read a) → m = m'

/-! ## The assembler -/

/-- R78: a literal is an optional `-` and decimal digits, leading zeros allowed; in range it encodes
as its value modulo 2^64, else it is an error. `Nat.ofDigits` gives the value of the digits. -/
def Obligations.LiteralsEncodeModulo : Prop :=
  ∀ (ds : Text), ds ≠ [] → (∀ d ∈ ds, 0x30 ≤ d.toNat ∧ d.toNat ≤ 0x39) →
    (∀ n : Nat, n = Nat.ofDigits 10 (ds.reverse.map (fun d => d.toNat - 0x30)) →
      (n < 2 ^ 64 → ∃ v, classifyOperand ds = .ok (.imm v) ∧ v.toNat = n) ∧
      (2 ^ 64 ≤ n → classifyOperand ds = .error .immediateOutOfRange) ∧
      (n ≤ 2 ^ 63 → ∃ v, classifyOperand (0x2D :: ds) = .ok (.imm v) ∧
        v.toNat = (2 ^ 64 - n) % 2 ^ 64) ∧
      (2 ^ 63 < n → classifyOperand (0x2D :: ds) = .error .immediateOutOfRange))

/-- R77: the classes of an operand token, by the first test it passes, and the first failure of a
list of tokens. -/
def Obligations.OperandClasses : Prop :=
  (∀ (tok : Text) (r : Reg), classifyOperand tok = .ok (.reg r) ↔
    ∃ c, (c = 0x72 ∨ c = 0x52) ∧
      tok = c :: (if r.val < 10 then [BitVec.ofNat 8 (0x30 + r.val)]
        else [0x31, BitVec.ofNat 8 (0x30 + (r.val - 10))])) ∧
  (∀ (tok : Text), classifyOperand tok = .error .reservedRegister ↔
    tok.map toLower = ascii "ip" ∨ tok.map toLower = ascii "rf") ∧
  (∀ (tok : Text), ((∃ v, classifyOperand tok = .ok (.imm v)) ∨
      classifyOperand tok = .error .immediateOutOfRange) ↔
    isDecimal tok = true ∨ ∃ ds, tok = 0x2D :: ds ∧ isDecimal ds = true) ∧
  (∀ (tok name : Text), classifyOperand tok = .ok (.label name) ↔
    name = tok ∧ isIdent tok = true ∧ registerOf tok = none ∧ isReservedName tok = false) ∧
  (∀ (tok : Text), classifyOperand tok = .error .malformedOperand ↔
    registerOf tok = none ∧ isReservedName tok = false ∧ literalOf tok = none ∧
      isIdent tok = false) ∧
  (∀ (pre post : List Text) (tok : Text) (k : CompileErrorKind),
    (∀ p ∈ pre, ∃ o, classifyOperand p = .ok o) → classifyOperand tok = .error k →
    classifyOperands (pre ++ tok :: post) = .error k)

/-- R70: a comment after any line, whether or not the line has code, changes nothing of what `compile`
answers. The lines hold no LF and do not end in CR; the comments hold no LF. -/
def Obligations.CommentsAreIgnored : Prop :=
  ∀ (lines : List (Text × Text)),
    (∀ p ∈ lines, (0x0A : Byte) ∉ p.1 ∧ p.1.getLast? ≠ some 0x0D ∧ (0x0A : Byte) ∉ p.2) →
    compile (List.intercalate [0x0A] (lines.map (fun p => p.1 ++ 0x3B :: p.2))) =
      compile (List.intercalate [0x0A] (lines.map (fun p => p.1)))

/-- Surrounding white space and CR LF line ends change nothing of what `compile` answers
(30_encoding.md R69, R71). A line is white space, text, white space; the text holds no LF and does not
end in CR. -/
def Obligations.LineEndsAndWhitespaceAreIgnored : Prop :=
  ∀ (lines : List (Text × Text × Text)),
    (∀ p ∈ lines, (∀ b ∈ p.1, b = 0x20 ∨ b = 0x09) ∧ (0x0A : Byte) ∉ p.2.1 ∧
      p.2.1.getLast? ≠ some 0x0D ∧ (∀ b ∈ p.2.2, b = 0x20 ∨ b = 0x09)) →
    compile (List.intercalate [0x0A]
        (lines.map (fun p => p.1 ++ p.2.1 ++ p.2.2 ++ [0x0D]))) =
      compile (List.intercalate [0x0A] (lines.map (fun p => p.2.1)))

/-- R75: the mnemonic is one of the nine in lower case exactly, and any other token is
`UnknownMnemonic`, whatever the operands. -/
def Obligations.MnemonicsAreExactlyTheNine : Prop :=
  ∀ (mn operands : Text),
    (parseInstruction mn operands = .error .unknownMnemonic ↔
      mn ∉ [ascii "mov", ascii "add", ascii "inc", ascii "xor", ascii "cmp", ascii "jmp",
        ascii "jle", ascii "jg", ascii "exit"]) ∧
    (∀ m os, parseInstruction mn operands = .ok (m, os) →
      (mn, m) ∈ [(ascii "mov", Mnemonic.mov), (ascii "add", .add), (ascii "inc", .inc),
        (ascii "xor", .xor), (ascii "cmp", .cmp), (ascii "jmp", .jmp), (ascii "jle", .jle),
        (ascii "jg", .jg), (ascii "exit", .exit)])

/-- Operand text is split at every comma, and white space around an operand is removed (30_encoding.md
R74). The operands hold no comma and neither begin nor end in white space. -/
def Obligations.OperandTextSplitsAtCommas : Prop :=
  ∀ (ops : List (Text × Text × Text)),
    (∀ p ∈ ops, (∀ b ∈ p.1, b = 0x20 ∨ b = 0x09) ∧ (∀ b ∈ p.2.2, b = 0x20 ∨ b = 0x09) ∧
      (0x2C : Byte) ∉ p.2.1 ∧ (∀ b, p.2.1.head? = some b → b ≠ 0x20 ∧ b ≠ 0x09) ∧
      (∀ b, p.2.1.getLast? = some b → b ≠ 0x20 ∧ b ≠ 0x09)) →
    List.intercalate [0x2C] (ops.map (fun p => p.1 ++ p.2.1 ++ p.2.2)) ≠ [] →
    operandTokens (List.intercalate [0x2C] (ops.map (fun p => p.1 ++ p.2.1 ++ p.2.2))) =
      ops.map (fun p => p.2.1)

/-- R76, R79 and the order R85 gives inside a line: an empty token, then the operand count, then the
operand classes, then the form; what passes is the instruction spelled. -/
def Obligations.InstructionLineChecksInOrder : Prop :=
  ∀ (mn operands : Text) (m : Mnemonic) (n : Nat) (forms : List (List OperandKind)),
    (mn, m, n, forms) ∈
      [(ascii "mov", Mnemonic.mov, 2,
          [[OperandKind.reg, OperandKind.reg], [OperandKind.reg, OperandKind.imm]]),
        (ascii "add", .add, 2, [[.reg, .reg]]), (ascii "inc", .inc, 1, [[.reg]]),
        (ascii "xor", .xor, 2, [[.reg, .reg]]), (ascii "cmp", .cmp, 2, [[.reg, .reg]]),
        (ascii "jmp", .jmp, 1, [[.addr]]), (ascii "jle", .jle, 1, [[.addr]]),
        (ascii "jg", .jg, 1, [[.addr]]), (ascii "exit", .exit, 0, [[]])] →
    ([] ∈ operandTokens operands → parseInstruction mn operands = .error .malformedOperand) ∧
    ([] ∉ operandTokens operands →
      ((operandTokens operands).length ≠ n →
        parseInstruction mn operands = .error .wrongOperandCount) ∧
      ((operandTokens operands).length = n →
        (∀ k, classifyOperands (operandTokens operands) = .error k →
          parseInstruction mn operands = .error k) ∧
        (∀ os, classifyOperands (operandTokens operands) = .ok os →
          (os.map AsmOperand.kind ∈ forms → parseInstruction mn operands = .ok (m, os)) ∧
          (os.map AsmOperand.kind ∉ forms →
            parseInstruction mn operands = .error .wrongOperandKind))))

/-- R88, last part: pass 1 finds exactly one instruction for each instruction line, in order, each the
instruction its line spells, with that line's number; label and blank lines give none. -/
def Obligations.EveryInstructionLineEmitsOne : Prop :=
  ∀ (lines : List Text) (asm : Assembly), pass1 1 0 [] lines = .ok asm →
    (∀ l ∈ lines, ∀ mn operands, lexLine l = .instruction mn operands →
      ∃ p, parseInstruction mn operands = .ok p) ∧
    asm.insts = (lines.zipIdx 1).filterMap (fun q =>
      match lexLine q.1 with
      | .instruction mn operands =>
        match parseInstruction mn operands with
        | .ok p => some { line := q.2, mnemonic := p.1, operands := p.2 }
        | .error _ => none
      | _ => none)

/-- R72 and R73: the checks on a label declaration, in order; and once pass 1 passes, the symbol table
holds the declared names, each once. -/
def Obligations.LabelNamesAreLegalAndDistinct : Prop :=
  (∀ (sym : SymbolTable) (name : Text),
    (isIdent name = false → labelError sym name = some .malformedLabel) ∧
    (isIdent name = true →
      ((name.map toLower = ascii "ip" ∨ name.map toLower = ascii "rf" ∨
          ∃ c ds, name = c :: ds ∧ (c = 0x72 ∨ c = 0x52) ∧ isDecimal ds = true) →
        labelError sym name = some .labelIsRegisterName) ∧
      (¬ (name.map toLower = ascii "ip" ∨ name.map toLower = ascii "rf" ∨
          ∃ c ds, name = c :: ds ∧ (c = 0x72 ∨ c = 0x52) ∧ isDecimal ds = true) →
        (name ∈ sym.map Prod.fst → labelError sym name = some .duplicateLabel) ∧
        (name ∉ sym.map Prod.fst → labelError sym name = none)))) ∧
  (∀ (lines : List Text) (asm : Assembly), pass1 1 0 [] lines = .ok asm →
    (asm.sym.map Prod.fst).Nodup ∧
    ∀ name, name ∈ asm.sym.map Prod.fst ↔ ∃ l ∈ lines, lexLine l = .label name)

/-- R80 and R81: a label binds to the offset of the first instruction after it, which is the total width
of the instructions before it; with none after it, to `len(B)`. A label line emits nothing. -/
def Obligations.LabelsBindToTheNextInstruction : Prop :=
  ∀ (pre post : List Text) (l name : Text) (asm : Assembly), lexLine l = .label name →
    pass1 1 0 [] (pre ++ l :: post) = .ok asm →
    ∃ before after, asm.insts = before ++ after ∧
      (∃ b, pass1 1 0 [] pre = .ok b ∧ b.insts = before) ∧
      asm.sym.find name = some (before.map AsmInstr.width).sum ∧
      asm.total = (asm.insts.map AsmInstr.width).sum ∧
      (after = [] → asm.sym.find name = some asm.total) ∧
      (∀ bs, pass2 asm.sym asm.insts = .ok bs → bs.length = asm.total)

/-- R85 for pass 1: the error reported is of the first line that has one. The lines before it pass, and
what follows it does not matter. -/
def Obligations.FirstErrorOfPassOneIsReported : Prop :=
  ∀ (lines : List Text) (e : CompileError), pass1 1 0 [] lines = .error e →
    1 ≤ e.line ∧ e.line ≤ lines.length ∧
    (∃ asm, pass1 1 0 [] (lines.take (e.line - 1)) = .ok asm) ∧
    (∀ more, pass1 1 0 [] (lines.take e.line ++ more) = .error e)

/-- R82 and R85 for pass 2: once pass 1 passes, `compile` fails exactly where a label is undefined, and
names the first such label in line order with its line. -/
def Obligations.UndefinedLabelIsReported : Prop :=
  ∀ (src : Text) (asm : Assembly), pass1 1 0 [] (sourceLines src) = .ok asm →
    ((∃ bs, compile src = .ok bs) ↔
      ∀ a ∈ asm.insts, ∀ name, AsmOperand.label name ∈ a.operands →
        (asm.sym.find name).isSome = true) ∧
    (∀ e, compile src = .error e →
      ∃ before a after name, asm.insts = before ++ a :: after ∧ e.line = a.line ∧
        e.kind = .undefinedLabel name ∧ AsmOperand.label name ∈ a.operands ∧
        asm.sym.find name = none ∧
        ∀ b ∈ before, ∀ n, AsmOperand.label n ∈ b.operands → (asm.sym.find n).isSome = true)

/-- R89: what a source compiles to decodes, instruction by instruction, to the instructions of the
source in order, with their registers, immediates and resolved labels; the last one ends at
`len(B)`. -/
def Obligations.CompiledBytecodeDecodesToTheSource : Prop :=
  ∀ (src : Text) (bs : List Byte), compile src = .ok bs →
    ∃ asm is, pass1 1 0 [] (sourceLines src) = .ok asm ∧
      decodeAll is.length bs = some is ∧ bs = is.flatMap encode ∧
      bs.length = widthSum is ∧ bs.length = asm.total ∧
      List.Forall₂ (fun a i => a.resolve asm.sym = .ok (Instr.raw i)) asm.insts is

/-- R64: bytecode from `compile` never jumps into the middle of an instruction: every jump target is the
offset of an instruction's first byte, or `len(B)`. -/
def Obligations.CompiledJumpsLandOnInstructions : Prop :=
  ∀ (src : Text) (bs : List Byte) (is : List Instr), compile src = .ok bs →
    bs.length < 2 ^ 64 → decodeAll is.length bs = some is →
    ∀ i ∈ is, ∀ target, targetOf i = some target →
      ∃ k, k ≤ is.length ∧ target.toNat = widthSum (is.take k)
end

