-- ==== Sys2Proof/Laws/Decode.lean ====
section
/-! SUPPORT. The tables of the encoding read back, and the arithmetic of little-endian payloads. -/

namespace Sys2Proof

@[simp] theorem ofOpcode_opcode (m : Mnemonic) : Mnemonic.ofOpcode m.opcode = some m := by
  cases m <;> rfl

@[simp] theorem ofDescriptor_descriptor (k : OperandKind) :
    OperandKind.ofDescriptor k.descriptor = some k := by cases k <;> rfl

/-- A byte that names a mnemonic is that mnemonic's opcode. -/
theorem opcode_of_ofOpcode {b : Byte} {m : Mnemonic} (h : Mnemonic.ofOpcode b = some m) :
    b = m.opcode := by
  revert b m
  decide

/-- A byte that names an operand kind is that kind's descriptor. -/
theorem descriptor_of_ofDescriptor {b : Byte} {k : OperandKind}
    (h : OperandKind.ofDescriptor b = some k) : b = k.descriptor := by
  revert b k
  decide

@[simp] theorem kindsOf_descriptors (ks : List OperandKind) :
    kindsOf (ks.map OperandKind.descriptor) = some ks := by
  induction ks with
  | nil => rfl
  | cons k ks ih => simp [kindsOf, ih]

/-- A register's payload byte names that register. -/
@[simp] theorem ofPayload_payload (r : Reg) : Reg.ofPayload (Reg.payload r) = some r := by
  revert r
  decide

/-- A byte that names a register is that register's payload. -/
theorem payload_of_ofPayload {b : Byte} {r : Reg} (h : Reg.ofPayload b = some r) :
    b = Reg.payload r := by
  revert b r
  decide

/-- Only 16..255 name no register. -/
theorem ofPayload_eq_none {b : Byte} : Reg.ofPayload b = none ↔ 16 ≤ b.toNat := by
  by_cases h : b.toNat < 16
  · simp [Reg.ofPayload, h]
  · simp [Reg.ofPayload, h]
    omega

@[simp] theorem length_leBytes (n v : Nat) : (leBytes n v).length = n := by
  induction n generalizing v with
  | zero => rfl
  | succ n ih => simp [leBytes, ih]

/-- The number that `n` little-endian bytes of `v` spell. -/
theorem leNat_leBytes (n v : Nat) : leNat (leBytes n v) = v % 256 ^ n := by
  induction n generalizing v with
  | zero => simp [leBytes, leNat, Nat.mod_one]
  | succ n ih =>
    simp only [leBytes, leNat, ih, BitVec.toNat_ofNat]
    rw [Nat.pow_succ' (n := n), Nat.mod_mul]

/-- The bytes of the number that some bytes spell. -/
theorem leBytes_leNat (bs : List Byte) : leBytes bs.length (leNat bs) = bs := by
  induction bs with
  | nil => rfl
  | cons b bs ih =>
    have hb : b.toNat < 256 := b.isLt
    have h1 : (b.toNat + 256 * leNat bs) / 256 = leNat bs := by omega
    have h2 : BitVec.ofNat 8 (b.toNat + 256 * leNat bs) = b := by
      apply BitVec.eq_of_toNat_eq
      simp
      omega
    simp only [List.length_cons, leBytes, leNat, h1, h2, ih]

theorem leNat_lt (bs : List Byte) : leNat bs < 256 ^ bs.length := by
  induction bs with
  | nil => simp [leNat]
  | cons b bs ih =>
    have hb : b.toNat < 256 := b.isLt
    simp only [leNat, List.length_cons, Nat.pow_succ]
    omega

@[simp] theorem length_le64Bytes (v : Word) : (le64Bytes v).length = 8 := length_leBytes _ _

/-! Payloads, read and written. -/

/-- An 8-byte payload reads back as the value it was written from, whatever follows it. -/
theorem le64_le64Bytes_append (v : Word) (rest : List Byte) : le64 (le64Bytes v ++ rest) = v := by
  have h : (le64Bytes v ++ rest).take 8 = le64Bytes v := by
    rw [List.take_append_of_le_length (by simp)]
    simp
  rw [le64, h, le64Bytes, leNat_leBytes]
  apply BitVec.eq_of_toNat_eq
  have := v.isLt
  rw [BitVec.toNat_ofNat, show (256 : Nat) ^ 8 = 2 ^ 64 by norm_num]
  omega

/-- The bytes of the value that the first eight of some bytes spell are those eight. -/
theorem le64Bytes_le64 {bs : List Byte} (h : 8 ≤ bs.length) : le64Bytes (le64 bs) = bs.take 8 := by
  have hl : (bs.take 8).length = 8 := by
    simp
    omega
  have hlt := leNat_lt (bs.take 8)
  rw [hl] at hlt
  have hv : (le64 bs).toNat = leNat (bs.take 8) := by
    rw [le64, BitVec.toNat_ofNat]
    exact Nat.mod_eq_of_lt (lt_of_lt_of_eq hlt (by norm_num))
  have hb := leBytes_leNat (bs.take 8)
  rw [hl] at hb
  rw [le64Bytes, hv, hb]

theorem payloadsWidth_cons (k : OperandKind) (ks : List OperandKind) :
    payloadsWidth (k :: ks) = k.payloadWidth + payloadsWidth ks := rfl

theorem length_payload (o : Operand) : o.payload.length = o.kind.payloadWidth := by
  cases o <;> simp [Operand.payload, Operand.kind, OperandKind.payloadWidth]

/-- The payloads of some operands take the bytes their kinds say. -/
theorem length_payloads (os : List Operand) :
    (os.flatMap Operand.payload).length = payloadsWidth (os.map Operand.kind) := by
  induction os with
  | nil => rfl
  | cons o os ih => simp [ih, length_payload, payloadsWidth_cons]

/-- One payload reads back, and the bytes after it are what follows. -/
theorem readPayload_payload (o : Operand) (rest : List Byte) :
    readPayload o.kind (o.payload ++ rest) = o ∧
      (o.payload ++ rest).drop o.kind.payloadWidth = rest := by
  constructor
  · cases o with
    | reg n => rfl
    | imm v => exact congrArg Operand.imm (le64_le64Bytes_append v rest)
    | addr t => exact congrArg Operand.addr (le64_le64Bytes_append t rest)
  · rw [← length_payload, List.drop_left]

/-- The payloads of some operands read back, whatever follows them. -/
theorem readPayloads_payloads (os : List Operand) (rest : List Byte) :
    readPayloads (os.map Operand.kind) (os.flatMap Operand.payload ++ rest) = os := by
  induction os with
  | nil => rfl
  | cons o os ih =>
    obtain ⟨h1, h2⟩ := readPayload_payload o (os.flatMap Operand.payload ++ rest)
    simp only [List.flatMap_cons, List.append_assoc, List.map_cons, readPayloads, h1, h2, ih]

/-- Read operands have the kinds they were read by, and their payloads are the bytes read. -/
theorem readPayloads_bytes (ks : List OperandKind) (bs : List Byte)
    (h : payloadsWidth ks ≤ bs.length) :
    (readPayloads ks bs).map Operand.kind = ks ∧
      (readPayloads ks bs).flatMap Operand.payload = bs.take (payloadsWidth ks) := by
  induction ks generalizing bs with
  | nil => simp [readPayloads, payloadsWidth]
  | cons k ks ih =>
    rw [payloadsWidth_cons] at h
    obtain ⟨ih1, ih2⟩ := ih (bs.drop k.payloadWidth) (by simp; omega)
    have hk : (readPayload k bs).kind = k := by cases k <;> rfl
    have hp : (readPayload k bs).payload = bs.take k.payloadWidth := by
      cases k with
      | reg =>
        cases bs with
        | nil => simp [OperandKind.payloadWidth] at h
        | cons => rfl
      | imm => exact le64Bytes_le64 (Nat.le_trans (Nat.le_add_right 8 _) h)
      | addr => exact le64Bytes_le64 (Nat.le_trans (Nat.le_add_right 8 _) h)
    exact ⟨by simp [readPayloads, hk, ih1],
      by rw [payloadsWidth_cons, readPayloads, List.flatMap_cons, hp, ih2, List.take_add]⟩

/-- Descriptor bytes that spell some kinds are those kinds' descriptors. -/
theorem descriptors_of_kindsOf {ds : List Byte} {ks : List OperandKind} (h : kindsOf ds = some ks) :
    ds = ks.map OperandKind.descriptor := by
  induction ds generalizing ks with
  | nil =>
    cases h
    rfl
  | cons d ds ih =>
    cases h1 : OperandKind.ofDescriptor d with
    | none => simp [kindsOf, h1] at h
    | some k =>
      cases h2 : kindsOf ds with
      | none => simp [kindsOf, h1, h2] at h
      | some ks' =>
        simp only [kindsOf, h1, h2, Option.some.injEq] at h
        subst h
        simp [descriptor_of_ofDescriptor h1, ih h2]

/-! Instructions and their raw shapes. -/

/-- An instruction's raw shape is that instruction. -/
theorem toInstr_raw (i : Instr) : i.raw.toInstr = some i := by
  cases i <;> simp [Instr.raw, RawInstr.toInstr, Instr.mnemonic, Instr.operands, twoRegs]

/-- A raw shape that is an instruction is that instruction's raw shape. -/
theorem raw_of_toInstr {r : RawInstr} {i : Instr} (h : r.toInstr = some i) : r = i.raw := by
  obtain ⟨m, os⟩ := r
  unfold RawInstr.toInstr at h
  have two : ∀ f a b, twoRegs f a b = some i →
      ∃ x y, a = Reg.payload x ∧ b = Reg.payload y ∧ i = f x y := by
    intro f a b h
    unfold twoRegs at h
    cases ha : Reg.ofPayload a <;> cases hb : Reg.ofPayload b <;> simp [ha, hb] at h
    exact ⟨_, _, payload_of_ofPayload ha, payload_of_ofPayload hb, h.symm⟩
  rcases os with _ | ⟨o1, _ | ⟨o2, _ | ⟨o3, os⟩⟩⟩
  · cases m <;> simp at h
    subst h
    rfl
  · cases o1 <;> cases m <;> simp at h
    · obtain ⟨x, hx, rfl⟩ := h
      rw [payload_of_ofPayload hx]
      rfl
    all_goals
      subst h
      rfl
  · cases o1 <;> cases o2 <;> cases m <;> simp only [reduceCtorEq] at h
    all_goals first
      | (obtain ⟨x, y, e1, e2, e3⟩ := two _ _ _ h
         rw [e1, e2, e3]
         rfl)
      | (simp only [Option.map_eq_some_iff] at h
         obtain ⟨x, hx, e⟩ := h
         rw [payload_of_ofPayload hx, ← e]
         rfl)
  · cases o1 <;> cases o2 <;> cases m <;> simp at h

/-- The encoding of a raw shape takes a byte for the opcode, one for each operand, and the payloads. -/
theorem length_encode_raw (r : RawInstr) :
    r.encode.length = 1 + r.operands.length + payloadsWidth (r.operands.map Operand.kind) := by
  simp only [RawInstr.encode, List.length_cons, List.length_append, List.length_map, length_payloads]
  omega

end Sys2Proof
end

