-- ==== Sys2Proof/Laws/Assembler.lean ====
section
/-! SUPPORT. What the assembler's shared operations do: splitting a text, the symbol table, the two
passes over a list, and resolving operands. -/

namespace Sys2Proof.Machine

/-! ## Splitting -/

theorem splitOn_of_not_mem {sep : Byte} {l : Text} (h : sep ∉ l) : splitOn sep l = [l] := by
  induction l with
  | nil => rfl
  | cons c cs ih =>
    simp only [List.mem_cons, not_or] at h
    simp [splitOn, Ne.symm h.1, ih h.2]

theorem splitOn_append {sep : Byte} {l : Text} (rest : Text) (h : sep ∉ l) :
    splitOn sep (l ++ sep :: rest) = l :: splitOn sep rest := by
  induction l with
  | nil => simp [splitOn]
  | cons c cs ih =>
    simp only [List.mem_cons, not_or] at h
    simp [splitOn, Ne.symm h.1, ih h.2]

/-! ## The symbol table -/

theorem SymbolTable.find_cons_same (sym : SymbolTable) (name : Text) (off : Nat) :
    SymbolTable.find ((name, off) :: sym) name = some off := by
  simp [SymbolTable.find, List.lookup]

theorem SymbolTable.find_cons_other (sym : SymbolTable) {name other : Text} (off : Nat)
    (h : name ≠ other) : SymbolTable.find ((other, off) :: sym) name = sym.find name := by
  have : (name == other) = false := by simpa using h
  simp [SymbolTable.find, List.lookup, this]

/-- A label that passes the checks is not in the table yet. -/
theorem find_of_labelError {sym : SymbolTable} {name : Text} (h : labelError sym name = none) :
    sym.find name = none := by
  unfold labelError at h
  split at h
  · cases h
  · split at h
    · cases h
    · split at h
      · cases h
      · rename_i hn
        simpa using hn

/-! ## Operands -/

/-- A resolved operand has the kind it had. -/
theorem AsmOperand.kind_resolve {sym : SymbolTable} {o : AsmOperand} {p : Operand}
    (h : o.resolve sym = .ok p) : p.kind = o.kind := by
  cases o <;> simp only [AsmOperand.resolve] at h
  · cases h
    rfl
  · cases h
    rfl
  · split at h <;> cases h
    rfl

/-- Resolving an operand fails only on a label that is not in the table. -/
theorem AsmOperand.resolve_error {sym : SymbolTable} {o : AsmOperand} {k : CompileErrorKind}
    (h : o.resolve sym = .error k) :
    ∃ name, o = .label name ∧ sym.find name = none ∧ k = .undefinedLabel name := by
  cases o <;> simp only [AsmOperand.resolve] at h
  · cases h
  · cases h
  · split at h <;> cases h
    exact ⟨_, rfl, ‹_›, rfl⟩

/-- Resolved operands have the kinds they had. -/
theorem kinds_resolveOperands {sym : SymbolTable} {os : List AsmOperand} {ps : List Operand}
    (h : resolveOperands sym os = .ok ps) : ps.map Operand.kind = os.map AsmOperand.kind := by
  induction os generalizing ps with
  | nil =>
    cases h
    rfl
  | cons o os ih =>
    simp only [resolveOperands] at h
    split at h
    · cases h
    · split at h
      · cases h
      · cases h
        simp [ih ‹_›, AsmOperand.kind_resolve ‹_›]

/-- A resolved instruction keeps its mnemonic, and its encoding has the width pass 1 counted. -/
theorem AsmInstr.resolve_ok {sym : SymbolTable} {a : AsmInstr} {raw : RawInstr}
    (h : a.resolve sym = .ok raw) :
    raw.mnemonic = a.mnemonic ∧ resolveOperands sym a.operands = .ok raw.operands ∧
      raw.encode.length = a.width := by
  simp only [AsmInstr.resolve] at h
  split at h
  · cases h
  · rename_i ps hps
    cases h
    have hk := kinds_resolveOperands hps
    have hl : ps.length = a.operands.length := by simpa using congrArg List.length hk
    exact ⟨rfl, hps, by simp [length_encode_raw, hk, hl, AsmInstr.width]⟩

/-! ## The passes -/

/-- Pass 1 over two lists of lines is pass 1 over the first, then over the second from where it
ended. -/
theorem pass1_append (pre post : List Text) (ln off : Nat) (sym : SymbolTable) (asm : Assembly) :
    pass1 ln off sym (pre ++ post) = .ok asm ↔
      ∃ b c, pass1 ln off sym pre = .ok b ∧ pass1 (ln + pre.length) b.total b.sym post = .ok c ∧
        asm = { c with insts := b.insts ++ c.insts } := by
  induction pre generalizing ln off sym asm with
  | nil =>
    simp only [List.nil_append, pass1, List.length_nil, Nat.add_zero]
    constructor
    · intro h
      exact ⟨_, asm, rfl, h, by simp⟩
    · rintro ⟨b, c, h, h2, rfl⟩
      cases h
      simpa using h2
  | cons l ls ih =>
    simp only [List.cons_append, pass1, List.length_cons,
      show ln + (ls.length + 1) = ln + 1 + ls.length by omega]
    split
    · exact ih _ _ _ _
    · split
      · simp
      · exact ih _ _ _ _
    · split
      · simp
      · constructor
        · intro h
          split at h
          · cases h
          · rename_i asm' h'
            cases h
            obtain ⟨b, c, h1, h2, h3⟩ := (ih _ _ _ _).1 h'
            exact ⟨{ b with insts := _ :: b.insts }, c, by rw [h1], h2, by rw [h3]; rfl⟩
        · rintro ⟨b, c, h1, h2, rfl⟩
          split at h1
          · cases h1
          · rename_i asm' h'
            cases h1
            rw [(ih _ _ _ _).2 ⟨asm', c, h', h2, rfl⟩]
            rfl

/-- Pass 2 over an instruction and the rest. -/
theorem pass2_cons_ok {sym : SymbolTable} {a : AsmInstr} {as : List AsmInstr} {bs : List Byte}
    (h : pass2 sym (a :: as) = .ok bs) :
    ∃ raw rest, a.resolve sym = .ok raw ∧ pass2 sym as = .ok rest ∧ bs = raw.encode ++ rest := by
  simp only [pass2] at h
  split at h
  · cases h
  · rename_i raw hr
    split at h
    · cases h
    · rename_i rest hrest
      cases h
      exact ⟨raw, rest, hr, hrest, rfl⟩

/-- `compile` is pass 1 on the source's lines and then pass 2 on what it finds. -/
theorem compile_ok {src : Text} {bs : List Byte} (h : compile src = .ok bs) :
    ∃ asm, pass1 1 0 [] (sourceLines src) = .ok asm ∧ pass2 asm.sym asm.insts = .ok bs := by
  unfold compile at h
  split at h
  · cases h
  · exact ⟨_, ‹_›, h⟩

end Sys2Proof.Machine
end

