-- ==== Sys2Proof/Laws/State.lean ====
section
/-! SUPPORT. One lemma per field per update of the state, so that no proof unfolds a record update. -/

namespace Sys2Proof.Machine

open Sys2Proof.Config

section WriteGpr
variable (s : State) (r : Reg) (v : Word)

@[simp] theorem writeGpr_ip : (s.writeGpr r v).ip = s.ip := rfl
@[simp] theorem writeGpr_rf : (s.writeGpr r v).rf = s.rf := rfl
@[simp] theorem writeGpr_cycle : (s.writeGpr r v).cycle = s.cycle := rfl
@[simp] theorem writeGpr_halted : (s.writeGpr r v).halted = s.halted := rfl
@[simp] theorem writeGpr_bytecode : (s.writeGpr r v).bytecode = s.bytecode := rfl
@[simp] theorem writeGpr_vmPresent : (s.writeGpr r v).vmPresent = s.vmPresent := rfl
@[simp] theorem writeGpr_params : (s.writeGpr r v).params = s.params := rfl

/-- A register reads back what was written to it (10_state.md R17). -/
@[simp] theorem readGpr_writeGpr_same : (s.writeGpr r v).readGpr r = v := by
  simp [State.readGpr, State.writeGpr]

/-- A write leaves every other register alone: none aliases another (R16). -/
theorem readGpr_writeGpr_other {q : Reg} (h : q ≠ r) : (s.writeGpr r v).readGpr q = s.readGpr q := by
  have hv : r.val ≠ q.val := fun e => h (Fin.ext e.symm)
  simp [State.readGpr, State.writeGpr, hv]

end WriteGpr

section WriteRf
variable (s : State) (v : Word)

@[simp] theorem writeRf_rf : (s.writeRf v).rf = v := rfl
@[simp] theorem writeRf_ip : (s.writeRf v).ip = s.ip := rfl
@[simp] theorem writeRf_gpr : (s.writeRf v).gpr = s.gpr := rfl
@[simp] theorem writeRf_cycle : (s.writeRf v).cycle = s.cycle := rfl
@[simp] theorem writeRf_halted : (s.writeRf v).halted = s.halted := rfl
@[simp] theorem writeRf_bytecode : (s.writeRf v).bytecode = s.bytecode := rfl
@[simp] theorem writeRf_vmPresent : (s.writeRf v).vmPresent = s.vmPresent := rfl
@[simp] theorem writeRf_params : (s.writeRf v).params = s.params := rfl
@[simp] theorem readGpr_writeRf (r : Reg) : (s.writeRf v).readGpr r = s.readGpr r := rfl

end WriteRf

section Retire
variable (s : State) (a : Word)

@[simp] theorem retire_ip : (s.retire a).ip = a := rfl
@[simp] theorem retire_rf : (s.retire a).rf = s.rf := rfl
@[simp] theorem retire_gpr : (s.retire a).gpr = s.gpr := rfl
@[simp] theorem retire_cycle : (s.retire a).cycle = s.cycle + 1 := rfl
@[simp] theorem retire_halted : (s.retire a).halted = s.halted := rfl
@[simp] theorem retire_bytecode : (s.retire a).bytecode = s.bytecode := rfl
@[simp] theorem retire_vmPresent : (s.retire a).vmPresent = s.vmPresent := rfl
@[simp] theorem retire_params : (s.retire a).params = s.params := rfl
@[simp] theorem readGpr_retire (r : Reg) : (s.retire a).readGpr r = s.readGpr r := rfl

end Retire

section Advance
variable (s : State) (i : Instr)

@[simp] theorem advance_ip : (s.advance i).ip = s.ip + BitVec.ofNat 64 i.width := rfl
@[simp] theorem advance_rf : (s.advance i).rf = s.rf := rfl
@[simp] theorem advance_gpr : (s.advance i).gpr = s.gpr := rfl
@[simp] theorem advance_cycle : (s.advance i).cycle = s.cycle + 1 := rfl
@[simp] theorem advance_halted : (s.advance i).halted = s.halted := rfl
@[simp] theorem advance_bytecode : (s.advance i).bytecode = s.bytecode := rfl
@[simp] theorem advance_vmPresent : (s.advance i).vmPresent = s.vmPresent := rfl
@[simp] theorem advance_params : (s.advance i).params = s.params := rfl
@[simp] theorem readGpr_advance (r : Reg) : (s.advance i).readGpr r = s.readGpr r := rfl

end Advance

section Halt
variable (s : State) (b : Bool)

@[simp] theorem readGpr_withHalted (r : Reg) : ({ s with halted := b } : State).readGpr r = s.readGpr r :=
  rfl

end Halt

section InitVm
variable (s : State) (bs : List Byte)

@[simp] theorem initVm_ip : (s.initVm bs).ip = 0 := rfl
@[simp] theorem initVm_rf : (s.initVm bs).rf = 0 := rfl
@[simp] theorem initVm_gpr : (s.initVm bs).gpr = Vector.replicate 16 0 := rfl
@[simp] theorem initVm_cycle : (s.initVm bs).cycle = 0 := rfl
@[simp] theorem initVm_halted : (s.initVm bs).halted = false := rfl
@[simp] theorem initVm_bytecode : (s.initVm bs).bytecode = Memory.ofBytes bs := rfl
@[simp] theorem initVm_vmPresent : (s.initVm bs).vmPresent = true := rfl
@[simp] theorem initVm_params : (s.initVm bs).params = s.params := rfl

@[simp] theorem readGpr_initVm (r : Reg) : (s.initVm bs).readGpr r = 0 := by
  simp [State.readGpr]

end InitVm

section PlaceAtIp
variable (s : State) (bs : List Byte)

@[simp] theorem placeAtIp_ip : (s.placeAtIp bs).ip = s.ip := rfl
@[simp] theorem placeAtIp_rf : (s.placeAtIp bs).rf = s.rf := rfl
@[simp] theorem placeAtIp_gpr : (s.placeAtIp bs).gpr = s.gpr := rfl
@[simp] theorem placeAtIp_cycle : (s.placeAtIp bs).cycle = s.cycle := rfl
@[simp] theorem placeAtIp_halted : (s.placeAtIp bs).halted = false := rfl
@[simp] theorem placeAtIp_vmPresent : (s.placeAtIp bs).vmPresent = true := rfl
@[simp] theorem placeAtIp_params : (s.placeAtIp bs).params = s.params := rfl

end PlaceAtIp

end Sys2Proof.Machine
end

