-- ==== Sys2Proof/Laws/Exec.lean ====
section
/-! SUPPORT. What each shared operation and each meaning can do, said once: the shape of the next
state, and the only error an instruction raises. -/

namespace Sys2Proof.Machine

open Sys2Proof.Config

/-- A conditional jump raises `RfUnset` under the policy `fault` with RF at NONE, or retires at one of
its two addresses. -/
theorem conditionalJump_cases (i : Instr) (c : Bool) (a : Word) (s : State) :
    (s.rf = 0 ∧ s.params.unsetRf = .fault ∧ conditionalJump i c a s = .fault .rfUnset) ∨
    (s.rf = 0 ∧ s.params.unsetRf = .notTaken ∧ conditionalJump i c a s = .next (s.advance i)) ∨
    (s.rf ≠ 0 ∧ c = true ∧ conditionalJump i c a s = .next (s.retire a)) ∨
    (s.rf ≠ 0 ∧ c = false ∧ conditionalJump i c a s = .next (s.advance i)) := by
  by_cases h : s.rf = 0#64
  · cases hp : s.params.unsetRf <;> simp [conditionalJump, State.rfIsNone, State.raise, h, hp]
  · cases c <;> simp [conditionalJump, State.rfIsNone, h]

/-- The condition of `jle` is that RF holds LESS or EQUAL. -/
theorem rfSaysLessOrEqual_iff {s : State} :
    s.rfSaysLessOrEqual = true ↔ s.rf = s.params.rfCodes.less ∨ s.rf = s.params.rfCodes.equal := by
  simp [State.rfSaysLessOrEqual, State.rfCode, RfCodes.code]

/-- The condition of `jg` is that RF holds GREATER. -/
theorem rfSaysGreater_iff {s : State} : s.rfSaysGreater = true ↔ s.rf = s.params.rfCodes.greater := by
  simp [State.rfSaysGreater, State.rfCode, RfCodes.code]

/-- The three relations, by the unsigned order. -/
theorem relationOf_cases (a b : Word) :
    (a.toNat < b.toNat ∧ relationOf a b = .less) ∨
    (a.toNat = b.toNat ∧ relationOf a b = .equal) ∨
    (b.toNat < a.toNat ∧ relationOf a b = .greater) := by
  rcases Nat.lt_trichotomy a.toNat b.toNat with h | h | h
  · simp [relationOf, h]
  · simp [relationOf, h]
  · have h1 : ¬ a.toNat < b.toNat := by omega
    have h2 : a.toNat ≠ b.toNat := by omega
    simp [relationOf, h, h1, h2]

/-- Everything an instruction can do when it answers a next state: it writes its one GPR, or RF with a
code, or IP with a target, or it halts, or it only falls through; each with its retirement. -/
theorem exec_next_cases {i : Instr} {s t : State} (h : exec i s = .next t) :
    (∃ rd v, gprDest i = some rd ∧ targetOf i = none ∧ ¬ IsCmp i ∧ i ≠ .exit ∧
      t = (s.writeGpr rd v).advance i) ∨
    (∃ rel, IsCmp i ∧ t = (s.writeRf (s.rfCode rel)).advance i) ∨
    (∃ a, targetOf i = some a ∧ t = s.retire a) ∨
    (∃ a, targetOf i = some a ∧ IsConditionalJump i ∧ t = s.advance i) ∨
    (i = .exit ∧ t = { s.advance .exit with halted := true }) := by
  cases i with
  | movReg rd rs => cases h; exact .inl ⟨rd, _, rfl, rfl, id, nofun, rfl⟩
  | movImm rd v => cases h; exact .inl ⟨rd, _, rfl, rfl, id, nofun, rfl⟩
  | add rd rs => cases h; exact .inl ⟨rd, _, rfl, rfl, id, nofun, rfl⟩
  | inc r => cases h; exact .inl ⟨r, _, rfl, rfl, id, nofun, rfl⟩
  | xor rd rs => cases h; exact .inl ⟨rd, _, rfl, rfl, id, nofun, rfl⟩
  | cmp ra rb => cases h; exact .inr (.inl ⟨_, trivial, rfl⟩)
  | jmp a => cases h; exact .inr (.inr (.inl ⟨a, rfl, rfl⟩))
  | jle a =>
    change conditionalJump (.jle a) s.rfSaysLessOrEqual a s = .next t at h
    rcases conditionalJump_cases (.jle a) s.rfSaysLessOrEqual a s with
      ⟨_, _, e⟩ | ⟨_, _, e⟩ | ⟨_, _, e⟩ | ⟨_, _, e⟩ <;> rw [e] at h <;> cases h
    · exact .inr (.inr (.inr (.inl ⟨a, rfl, trivial, rfl⟩)))
    · exact .inr (.inr (.inl ⟨a, rfl, rfl⟩))
    · exact .inr (.inr (.inr (.inl ⟨a, rfl, trivial, rfl⟩)))
  | jg a =>
    change conditionalJump (.jg a) s.rfSaysGreater a s = .next t at h
    rcases conditionalJump_cases (.jg a) s.rfSaysGreater a s with
      ⟨_, _, e⟩ | ⟨_, _, e⟩ | ⟨_, _, e⟩ | ⟨_, _, e⟩ <;> rw [e] at h <;> cases h
    · exact .inr (.inr (.inr (.inl ⟨a, rfl, trivial, rfl⟩)))
    · exact .inr (.inr (.inl ⟨a, rfl, rfl⟩))
    · exact .inr (.inr (.inr (.inl ⟨a, rfl, trivial, rfl⟩)))
  | exit => cases h; exact .inr (.inr (.inr (.inr ⟨rfl, rfl⟩)))

/-- No meaning touches the bytecode, VM presence or the parameters, and each counts one cycle. -/
theorem exec_next_machine {i : Instr} {s t : State} (h : exec i s = .next t) :
    t.bytecode = s.bytecode ∧ t.vmPresent = s.vmPresent ∧ t.params = s.params ∧
      t.cycle = s.cycle + 1 := by
  rcases exec_next_cases h with ⟨_, _, -, -, -, -, rfl⟩ | ⟨_, -, rfl⟩ | ⟨_, -, rfl⟩ |
    ⟨_, -, -, rfl⟩ | ⟨-, rfl⟩ <;> exact ⟨rfl, rfl, rfl, rfl⟩

/-- The halted flag after a retirement is set for `exit` and as before for every other. -/
theorem exec_next_halted {i : Instr} {s t : State} (h : exec i s = .next t) :
    (i = .exit ∧ t.halted = true) ∨ (i ≠ .exit ∧ t.halted = s.halted) := by
  rcases exec_next_cases h with ⟨_, _, -, -, -, hne, rfl⟩ | ⟨_, hc, rfl⟩ | ⟨_, ht, rfl⟩ |
    ⟨_, ht, -, rfl⟩ | ⟨rfl, rfl⟩
  · exact .inr ⟨hne, rfl⟩
  · exact .inr ⟨(fun e => by subst e; exact hc), rfl⟩
  · exact .inr ⟨(fun e => by subst e; cases ht), rfl⟩
  · exact .inr ⟨(fun e => by subst e; cases ht), rfl⟩
  · exact .inl ⟨rfl, rfl⟩

/-- RF after a retirement is a code for `cmp` and as before for every other. -/
theorem exec_next_rf {i : Instr} {s t : State} (h : exec i s = .next t) :
    (IsCmp i ∧ ∃ rel, t.rf = s.rfCode rel) ∨ (¬ IsCmp i ∧ t.rf = s.rf) := by
  rcases exec_next_cases h with ⟨_, _, -, -, hc, -, rfl⟩ | ⟨rel, hc, rfl⟩ | ⟨_, ht, rfl⟩ |
    ⟨_, ht, -, rfl⟩ | ⟨rfl, rfl⟩
  · exact .inr ⟨hc, rfl⟩
  · exact .inl ⟨hc, rel, rfl⟩
  · exact .inr ⟨(fun e => by cases i <;> first | exact e | cases ht), rfl⟩
  · exact .inr ⟨(fun e => by cases i <;> first | exact e | cases ht), rfl⟩
  · exact .inr ⟨id, rfl⟩

/-- An instruction answers a next state, or raises `RfUnset`; it is never refused. -/
theorem exec_total (i : Instr) (s : State) :
    (∃ t, exec i s = .next t) ∨ (exec i s = .fault .rfUnset ∧ IsConditionalJump i ∧ s.rf = 0 ∧
      s.params.unsetRf = .fault) := by
  cases i with
  | jle a =>
    change (∃ t, conditionalJump (.jle a) s.rfSaysLessOrEqual a s = .next t) ∨
      (conditionalJump (.jle a) s.rfSaysLessOrEqual a s = .fault .rfUnset ∧ _)
    rcases conditionalJump_cases (.jle a) s.rfSaysLessOrEqual a s with
      ⟨h, hp, e⟩ | ⟨_, _, e⟩ | ⟨_, _, e⟩ | ⟨_, _, e⟩ <;> rw [e]
    · exact .inr ⟨rfl, trivial, h, hp⟩
    all_goals exact .inl ⟨_, rfl⟩
  | jg a =>
    change (∃ t, conditionalJump (.jg a) s.rfSaysGreater a s = .next t) ∨
      (conditionalJump (.jg a) s.rfSaysGreater a s = .fault .rfUnset ∧ _)
    rcases conditionalJump_cases (.jg a) s.rfSaysGreater a s with
      ⟨h, hp, e⟩ | ⟨_, _, e⟩ | ⟨_, _, e⟩ | ⟨_, _, e⟩ <;> rw [e]
    · exact .inr ⟨rfl, trivial, h, hp⟩
    all_goals exact .inl ⟨_, rfl⟩
  | _ => exact .inl ⟨_, rfl⟩

/-- `Step()` raises the decoder's error, or executes what it decodes; it is never refused. -/
theorem retireOne_cases (s : State) :
    (∃ r, s.fetchDecode = .error r ∧ s.retireOne = .fault (.decodeError r)) ∨
    (∃ i w, s.fetchDecode = .ok (i, w) ∧ s.retireOne = exec i s) := by
  cases h : s.fetchDecode with
  | error r => exact .inl ⟨r, rfl, by simp [State.retireOne, State.raise, h]⟩
  | ok p => exact .inr ⟨p.1, p.2, rfl, by simp [State.retireOne, h]⟩

theorem retireOne_ne_refused (s : State) (r : Refusal) : s.retireOne ≠ .refused r := by
  rcases retireOne_cases s with ⟨_, _, e⟩ | ⟨i, _, _, e⟩ <;> rw [e]
  · nofun
  · rcases exec_total i s with ⟨t, e⟩ | ⟨e, _⟩ <;> rw [e] <;> nofun

/-- A running VM retires exactly where `Step()` answers a next state. -/
theorem retireOne_next_iff {s t : State} (h : s.Running) :
    s.retireOne = .next t ↔ ∃ i, Retires s i t := by
  rcases retireOne_cases s with ⟨r, hf, e⟩ | ⟨i, w, hf, e⟩
  · rw [e]
    exact ⟨nofun, fun ⟨_, _, ⟨_, hw⟩, _⟩ => by rw [hf] at hw; cases hw⟩
  · rw [e]
    constructor
    · exact fun hn => ⟨i, h, ⟨w, hf⟩, hn⟩
    · rintro ⟨j, _, ⟨w', hw⟩, hn⟩
      rw [hf] at hw
      cases hw
      exact hn

/-- The step of a running VM is `Step()`. -/
theorem step_running {s : State} (h : s.Running) : step s = s.retireOne := by
  simp [step, State.guardedStep, h.1, h.2]

/-- The step of a halted VM changes nothing. -/
theorem step_halted {s : State} (hp : s.vmPresent = true) (hh : s.halted = true) :
    step s = .next s := by
  simp [step, State.guardedStep, hp, hh]

/-- Without a VM the step is refused. -/
theorem step_noVm {s : State} (h : s.vmPresent = false) : step s = .refused .noVm := by
  simp [step, State.guardedStep, h]

end Sys2Proof.Machine
end

