-- ==== Sys2Proof/Laws/HostOps.lean ====
section
/-! SUPPORT. What the drivers `single_step` and `execute` can answer, and how runs of retirements
compose. -/

namespace Sys2Proof.Machine

/-- Everything `single_step` can do. -/
theorem singleStep_cases (s : State) :
    (s.vmPresent = false ∧ singleStep s = (.refused .noVm, s)) ∨
    (s.vmPresent = true ∧ s.halted = true ∧ singleStep s = (.halted, s)) ∨
    (s.Running ∧ ∃ t i, Retires s i t ∧ s.retireOne = .next t ∧ singleStep s = (.continued, t)) ∨
    (s.Running ∧ ∃ f, s.retireOne = .fault f ∧ singleStep s = (.runtimeError f, s)) := by
  cases hp : s.vmPresent with
  | false => exact .inl ⟨rfl, by simp [singleStep, hp]⟩
  | true =>
    cases hh : s.halted with
    | true => exact .inr (.inl ⟨rfl, rfl, by simp [singleStep, hp, hh]⟩)
    | false =>
      have hr : s.Running := ⟨hp, hh⟩
      cases ho : s.retireOne with
      | next t =>
        obtain ⟨i, hi⟩ := (retireOne_next_iff hr).1 ho
        exact .inr (.inr (.inl ⟨hr, t, i, hi, rfl, by simp [singleStep, hp, hh, ho]⟩))
      | fault f => exact .inr (.inr (.inr ⟨hr, f, rfl, by simp [singleStep, hp, hh, ho]⟩))
      | refused r => exact absurd ho (retireOne_ne_refused s r)

/-- `execute` without a VM. -/
theorem executeFor_noVm {s : State} (h : s.vmPresent = false) (n : Nat) :
    executeFor n s = some (.refused .noVm, s) := by
  cases n <;> simp [executeFor, h]

/-- `execute` on a halted VM. -/
theorem executeFor_halted {s : State} (hp : s.vmPresent = true) (hh : s.halted = true) (n : Nat) :
    executeFor n s = some (.done, s) := by
  cases n <;> simp [executeFor, hp, hh]

/-- A running VM has not returned after no retirement. -/
theorem executeFor_zero {s : State} (h : s.Running) : executeFor 0 s = none := by
  simp [executeFor, h.1, h.2]

/-- `execute` goes on from the state after one retirement. -/
theorem executeFor_next {s t : State} (h : s.Running) (ho : s.retireOne = .next t) (n : Nat) :
    executeFor (n + 1) s = executeFor n t := by
  simp [executeFor, h.1, h.2, ho]

/-- `execute` returns the error a step raises, with the state as it was. -/
theorem executeFor_fault {s : State} {f : Fault} (h : s.Running) (ho : s.retireOne = .fault f)
    (n : Nat) : executeFor (n + 1) s = some (.runtimeError f, s) := by
  simp [executeFor, h.1, h.2, ho]

theorem RetiresAll.append {s u t : State} {is js : List Instr} (h : RetiresAll s is u)
    (h' : RetiresAll u js t) : RetiresAll s (is ++ js) t := by
  induction is generalizing s with
  | nil =>
    cases h
    exact h'
  | cons i is ih =>
    obtain ⟨v, a, b⟩ := h
    exact ⟨v, a, ih b⟩

theorem RetiresAll.single {s t : State} {i : Instr} (h : Retires s i t) : RetiresAll s [i] t :=
  ⟨t, h, rfl⟩

/-- The last retirement of a run. -/
theorem RetiresAll.snoc {s t : State} {is : List Instr} {i : Instr}
    (h : RetiresAll s (is ++ [i]) t) : ∃ u, RetiresAll s is u ∧ Retires u i t := by
  induction is generalizing s with
  | nil =>
    obtain ⟨u, a, b⟩ := h
    cases b
    exact ⟨s, rfl, a⟩
  | cons j is ih =>
    obtain ⟨v, a, b⟩ := h
    obtain ⟨u, c, d⟩ := ih b
    exact ⟨u, ⟨v, a, c⟩, d⟩

end Sys2Proof.Machine
end

