-- ==== Sys2Proof/Laws/Memory.lean ====
section
/-! SUPPORT. The bytecode: it reads back what was bound, placing a byte changes that byte alone, and
every operation keeps the canonical form. -/

namespace Sys2Proof.Machine

namespace Memory

/-- An offset at or past the end does not exist (20_memory.md R37). -/
theorem read_past_end {m : Memory} {a : Nat} (h : m.len ≤ a) : m.read a = none := by
  simp [read, unlisted, Nat.not_lt.mpr h]

/-- Inside the bytecode an unlisted byte is 0x00. -/
theorem read_inside {m : Memory} {a : Nat} (h : a < m.len) :
    m.read a = some ((lookup m.cells a).getD 0#8) := by
  simp only [read, unlisted, h, if_true]
  cases lookup m.cells a <;> rfl

/-- Every offset below the end reads some byte, and no other does. -/
theorem read_isSome {m : Memory} {a : Nat} : (m.read a).isSome = decide (a < m.len) := by
  by_cases h : a < m.len
  · simp [read_inside h, h]
  · simp [read_past_end (Nat.le_of_not_lt h), h]

theorem lookup_cellsOf (bs : List Byte) (o a : Nat) :
    (lookup (cellsOf o bs) a).getD 0#8 = if o ≤ a then bs[a - o]?.getD 0#8 else 0#8 := by
  induction bs generalizing o with
  | nil => simp [cellsOf, lookup]
  | cons b bs ih =>
    rcases Nat.lt_trichotomy a o with h | h | h
    · have h1 : ¬ o ≤ a := by omega
      have h2 : ¬ o + 1 ≤ a := by omega
      have h3 : a ≠ o := by omega
      by_cases hb : b = 0#8 <;> simp [cellsOf, lookup, hb, ih, h1, h2, h3]
    · subst h
      have h2 : ¬ a + 1 ≤ a := by omega
      by_cases hb : b = 0#8 <;> simp [cellsOf, lookup, hb, ih, h2]
    · have h1 : o ≤ a := by omega
      have h2 : o + 1 ≤ a := by omega
      have h3 : a ≠ o := by omega
      have h4 : a - o = (a - (o + 1)) + 1 := by omega
      by_cases hb : b = 0#8 <;> simp [cellsOf, lookup, hb, ih, h1, h2, h3, h4]

/-- The bytecode bound by `init_vm` reads as the bytes given, at every offset (20_memory.md R32). -/
@[simp] theorem read_ofBytes (bs : List Byte) (a : Nat) : (ofBytes bs).read a = bs[a]? := by
  by_cases h : a < bs.length
  · rw [read_inside h]
    simp [ofBytes, lookup_cellsOf, h]
  · rw [read_past_end (Nat.le_of_not_lt h), List.getElem?_eq_none (Nat.le_of_not_lt h)]

@[simp] theorem len_ofBytes (bs : List Byte) : (ofBytes bs).len = bs.length := rfl

theorem cellsWf_cellsOf (bs : List Byte) (o len : Nat) (h : o + bs.length ≤ len) (lo : Nat)
    (hlo : lo ≤ o) : cellsWf len lo (cellsOf o bs) = true := by
  induction bs generalizing o lo with
  | nil => rfl
  | cons b bs ih =>
    have h' : o + 1 + bs.length ≤ len := by simp at h; omega
    by_cases hb : b = 0#8
    · simpa [cellsOf, hb] using ih (o + 1) h' lo (by omega)
    · simp [cellsOf, cellsWf, hb, ih (o + 1) h' (o + 1) le_rfl, hlo]
      omega

/-- What `init_vm` binds is in canonical form. -/
theorem wf_ofBytes (bs : List Byte) : (ofBytes bs).wf = true :=
  cellsWf_cellsOf bs 0 bs.length (by omega) 0 le_rfl

theorem wf_empty : empty.wf = true := rfl

theorem cellsWf_mono {len len' lo lo' : Nat} {cs : List Host.Cell} (hl : len ≤ len') (ho : lo' ≤ lo)
    (h : cellsWf len lo cs = true) : cellsWf len' lo' cs = true := by
  induction cs generalizing lo lo' with
  | nil => rfl
  | cons c cs ih =>
    simp only [cellsWf, Bool.and_eq_true, decide_eq_true_eq] at h ⊢
    exact ⟨⟨⟨by omega, by omega⟩, h.1.2⟩, ih le_rfl h.2⟩

theorem cellsWf_setCell {len lo x : Nat} {cs : List Host.Cell} (v : Byte)
    (h : cellsWf len lo cs = true) (hlo : lo ≤ x) (hx : x < len) :
    cellsWf len lo (setCell cs x v) = true := by
  induction cs generalizing lo with
  | nil => by_cases hv : v = 0#8 <;> simp [setCell, cellsWf, hv, hlo, hx]
  | cons c cs ih =>
    obtain ⟨a, b⟩ := c
    have h0 := h
    simp only [cellsWf, Bool.and_eq_true, decide_eq_true_eq] at h
    obtain ⟨⟨⟨h1, h2⟩, h3⟩, h4⟩ := h
    rcases Nat.lt_trichotomy x a with hlt | rfl | hgt
    · have hxa : x + 1 ≤ a := hlt
      by_cases hv : v = 0#8
      · simpa [setCell, hlt, hv] using h0
      · simp [setCell, hlt, hv, cellsWf, hlo, hx, hxa, h2, h4]
        simpa using h3
    · by_cases hv : v = 0#8
      · simpa [setCell, hv] using cellsWf_mono le_rfl (by omega) h4
      · simp [setCell, hv, cellsWf, hlo, hx, h4]
    · have hn : ¬ x < a := by omega
      have hne : x ≠ a := by omega
      simp [setCell, hn, hne, cellsWf, h1, h2, ih h4 hgt]
      simpa using h3

/-- Placing a byte keeps the canonical form. -/
theorem wf_place {m : Memory} (h : m.wf = true) (x : Nat) (v : Byte) : (m.place x v).wf = true :=
  cellsWf_setCell v (cellsWf_mono (Nat.le_max_left _ _) le_rfl h) (Nat.zero_le _)
    (Nat.lt_of_lt_of_le (Nat.lt_succ_self x) (Nat.le_max_right _ _))

theorem wf_placeAll {m : Memory} (h : m.wf = true) (x : Nat) (bs : List Byte) :
    (m.placeAll x bs).wf = true := by
  induction bs generalizing m x with
  | nil => exact h
  | cons b bs ih => exact ih (wf_place h x b) (x + 1)

theorem lookup_below {len lo x : Nat} {cs : List Host.Cell} (h : cellsWf len lo cs = true)
    (hx : x < lo) : lookup cs x = none := by
  induction cs generalizing lo with
  | nil => rfl
  | cons c cs ih =>
    obtain ⟨a, b⟩ := c
    simp only [cellsWf, Bool.and_eq_true, decide_eq_true_eq] at h
    have hne : x ≠ a := by omega
    simpa [lookup, hne] using ih h.2 (by omega)

theorem lookup_setCell {len lo x : Nat} {cs : List Host.Cell} (v : Byte) (y : Nat)
    (h : cellsWf len lo cs = true) :
    (lookup (setCell cs x v) y).getD 0#8 = if y = x then v else (lookup cs y).getD 0 := by
  induction cs generalizing lo with
  | nil => by_cases hv : v = 0#8 <;> by_cases hy : y = x <;> simp [setCell, lookup, hv, hy]
  | cons c cs ih =>
    obtain ⟨a, b⟩ := c
    have h0 := h
    simp only [cellsWf, Bool.and_eq_true, decide_eq_true_eq] at h
    rcases Nat.lt_trichotomy x a with hlt | rfl | hgt
    · have hne : x ≠ a := by omega
      have hnone : lookup cs x = none := lookup_below h.2 (by omega)
      by_cases hv : v = 0#8 <;> by_cases hy : y = x <;> simp [setCell, hlt, lookup, hv, hy, hne, hnone]
    · by_cases hy : y = x
      · subst hy
        by_cases hv : v = 0#8
        · simp [setCell, hv, lookup_below h.2 (Nat.lt_succ_self y)]
        · simp [setCell, hv, lookup]
      · by_cases hv : v = 0#8 <;> simp [setCell, lookup, hv, hy]
    · have hn : ¬ x < a := by omega
      have hne : x ≠ a := by omega
      by_cases hy : y = a
      · subst hy
        have : y ≠ x := fun e => hne e.symm
        simp [setCell, hn, hne, lookup, this]
      · simp [setCell, hn, hne, lookup, hy, ih h.2]

/-- A placed byte reads back. -/
theorem read_place_same {m : Memory} (h : m.wf = true) (x : Nat) (v : Byte) :
    (m.place x v).read x = some v := by
  have hx : x < (m.place x v).len := Nat.lt_of_lt_of_le (Nat.lt_succ_self x) (Nat.le_max_right _ _)
  rw [read_inside hx]
  simp [place, lookup_setCell v x h]

/-- Placing a byte leaves every other byte of the bytecode alone. -/
theorem read_place_other {m : Memory} (h : m.wf = true) {x a : Nat} (v : Byte) (hne : a ≠ x)
    (ha : a < m.len) : (m.place x v).read a = m.read a := by
  have hx : a < (m.place x v).len := Nat.lt_of_lt_of_le ha (Nat.le_max_left _ _)
  rw [read_inside hx, read_inside ha]
  simp [place, lookup_setCell v a h, hne]

/-- The fetch window of a bound bytecode is a piece of it. -/
theorem window_ofBytes (bs : List Byte) (a n : Nat) :
    (ofBytes bs).window a n = (bs.drop a).take n := by
  induction n generalizing a with
  | zero => simp [window]
  | succ n ih =>
    by_cases h : a < bs.length
    · rw [List.drop_eq_getElem_cons h, List.take_succ_cons, ← ih]
      simp [window, h]
    · simp [window, List.getElem?_eq_none (Nat.le_of_not_lt h), List.drop_eq_nil_of_le (Nat.le_of_not_lt h)]

/-- The bytes of a fetch window are the bytecode's, at the offsets from its start on. -/
theorem window_getElem? (m : Memory) (a n k : Nat) :
    (m.window a n)[k]? = if k < n then m.read (a + k) else none := by
  induction n generalizing a k with
  | zero => simp [window]
  | succ n ih =>
    cases hr : m.read a with
    | none =>
      have hl : m.len ≤ a := by
        by_contra hc
        have := read_isSome (m := m) (a := a)
        simp [hr] at this
        omega
      have : m.read (a + k) = none := read_past_end (by omega)
      simp [window, hr, this]
    | some b =>
      cases k with
      | zero => simp [window, hr]
      | succ k =>
        have : a + 1 + k = a + (k + 1) := by omega
        simp [window, hr, ih, this]

/-- How long a fetch window is: up to the end of the bytecode. -/
theorem length_window (m : Memory) (a n : Nat) : (m.window a n).length = min n (m.len - a) := by
  induction n generalizing a with
  | zero => simp [window]
  | succ n ih =>
    by_cases h : a < m.len
    · simp [window, read_inside h, ih]
      omega
    · simp [window, read_past_end (Nat.le_of_not_lt h)]
      omega

end Memory

end Sys2Proof.Machine
end

