-- ==== Sys2Proof/Laws/PerInstr.lean ====
section
/-! SUPPORT. Statements about every instruction as syntax, one lemma per constructor. -/

namespace Sys2Proof.Laws

/-- An instruction's encoding has the width that its form fixes (30_encoding.md R54). -/
def EncodeLength.Statement (i : Instr) : Prop := (encode i).length = i.width

theorem EncodeLength.movReg (rd rs : Reg) : EncodeLength.Statement (.movReg rd rs) := rfl

theorem EncodeLength.movImm (rd : Reg) (imm : Word) : EncodeLength.Statement (.movImm rd imm) := rfl

theorem EncodeLength.add (rd rs : Reg) : EncodeLength.Statement (.add rd rs) := rfl

theorem EncodeLength.inc (r : Reg) : EncodeLength.Statement (.inc r) := rfl

theorem EncodeLength.xor (rd rs : Reg) : EncodeLength.Statement (.xor rd rs) := rfl

theorem EncodeLength.cmp (ra rb : Reg) : EncodeLength.Statement (.cmp ra rb) := rfl

theorem EncodeLength.jmp (target : Word) : EncodeLength.Statement (.jmp target) := rfl

theorem EncodeLength.jle (target : Word) : EncodeLength.Statement (.jle target) := rfl

theorem EncodeLength.jg (target : Word) : EncodeLength.Statement (.jg target) := rfl

theorem EncodeLength.exit : EncodeLength.Statement .exit := rfl

/-- An instruction passes every check of `RawInstr.wellFormed` (R49, R53, R55). -/
def WellFormedInstr.Statement (i : Instr) : Prop := i.wellFormed = true

/-- A register's payload byte is in range. -/
theorem inRange_payload (r : Reg) : Operand.inRange (.reg (Reg.payload r)) = true := by
  revert r
  decide

/-- The range check on one register operand. -/
theorem all_one (r : Reg) : [Operand.reg (Reg.payload r)].all Operand.inRange = true := by
  simp only [List.all_cons, List.all_nil, inRange_payload, Bool.and_true]

/-- The range check on two register operands. -/
theorem all_two (a b : Reg) :
    [Operand.reg (Reg.payload a), Operand.reg (Reg.payload b)].all Operand.inRange = true := by
  simp only [List.all_cons, List.all_nil, inRange_payload, Bool.and_true]

theorem WellFormedInstr.movReg (rd rs : Reg) : WellFormedInstr.Statement (.movReg rd rs) :=
  all_two rd rs

theorem WellFormedInstr.movImm (rd : Reg) (imm : Word) :
    WellFormedInstr.Statement (.movImm rd imm) := all_one rd

theorem WellFormedInstr.add (rd rs : Reg) : WellFormedInstr.Statement (.add rd rs) := all_two rd rs

theorem WellFormedInstr.inc (r : Reg) : WellFormedInstr.Statement (.inc r) := all_one r

theorem WellFormedInstr.xor (rd rs : Reg) : WellFormedInstr.Statement (.xor rd rs) := all_two rd rs

theorem WellFormedInstr.cmp (ra rb : Reg) : WellFormedInstr.Statement (.cmp ra rb) := all_two ra rb

theorem WellFormedInstr.jmp (target : Word) : WellFormedInstr.Statement (.jmp target) := rfl

theorem WellFormedInstr.jle (target : Word) : WellFormedInstr.Statement (.jle target) := rfl

theorem WellFormedInstr.jg (target : Word) : WellFormedInstr.Statement (.jg target) := rfl

theorem WellFormedInstr.exit : WellFormedInstr.Statement .exit := rfl

end Sys2Proof.Laws
end

