-- ==== Sys2Proof/Tests/Slice0.lean ====
section
/-! SUPPORT. Tests and witnesses. Expected results are the spec's own: 95_test_vectors.md W1 to W5, V1 to
V88, and the examples of the rules. A `witness_` theorem gives a state and operands that meet all the
hypotheses of the obligation it is named after. -/

namespace Sys2Proof.Tests

open Sys2Proof Sys2Proof.Machine Sys2Proof.Config

/-! ## Helpers -/

def nextOf : Host.Outcome State Fault Refusal → Option State
  | .next t => some t
  | _ => none

def faultOf : Host.Outcome State Fault Refusal → Option Fault
  | .fault f => some f
  | _ => none

/-- The state just after `init_vm`, "Start" of 95_test_vectors.md. -/
def start (bs : List Byte) : State := State.reset.initVm bs

/-- The same under the policy `fault`. -/
def startFault (bs : List Byte) : State :=
  (State.resetWith { rfCodes := RfCodes.default, unsetRf := .fault }).initVm bs

/-- One step from a state just after `init_vm` with two registers set. -/
def stepWith (bs : List Byte) (r q : Reg) (v w : Word) : Option State :=
  nextOf (step (((start bs).writeGpr r v).writeGpr q w))

/-- A jump at offset 29 with target 51, as in W1 and V27 to V30. -/
def jumpAt29 (opcode : Byte) (rf : Word) : State :=
  { (start (List.replicate 29 0 ++ [opcode, 0x03, 0x33, 0, 0, 0, 0, 0, 0, 0])) with ip := 29, rf := rf }

/-! ## Well-formedness -/

theorem test_wellFormed_count :
    RawInstr.wellFormed { mnemonic := .add, operands := [.reg 0] } = false ∧
    RawInstr.rightCount { mnemonic := .add, operands := [.reg 0] } = false := by decide

theorem test_wellFormed_form :
    RawInstr.wellFormed { mnemonic := .add, operands := [.reg 0, .imm 5] } = false ∧
    RawInstr.rightForm { mnemonic := .add, operands := [.reg 0, .imm 5] } = false ∧
    RawInstr.rightForm { mnemonic := .mov, operands := [.addr 0, .reg 1] } = false := by decide

theorem test_wellFormed_range :
    RawInstr.wellFormed { mnemonic := .inc, operands := [.reg 16] } = false ∧
    RawInstr.rightRange { mnemonic := .inc, operands := [.reg 16] } = false ∧
    RawInstr.toInstr { mnemonic := .inc, operands := [.reg 16] } = none := by decide

theorem test_wellFormed_accepts :
    RawInstr.wellFormed { mnemonic := .inc, operands := [.reg 15] } = true := by decide

/-! ## Decoding -/

/-- V1. -/
theorem test_decode_movReg : decode [0x01, 0x01, 0x01, 0x00, 0x01] = .ok (.movReg 0 1, 5) := by decide

/-- V3. -/
theorem test_decode_movImm :
    decode [0x01, 0x01, 0x02, 0x03, 0x2A, 0, 0, 0, 0, 0, 0, 0] = .ok (.movImm 3 42, 12) := by decide

/-- V6: the sign bit is in the last byte. -/
theorem test_decode_movImm_order :
    decode [0x01, 0x01, 0x02, 0x00, 0, 0, 0, 0, 0, 0, 0, 0x80] =
      .ok (.movImm 0 0x8000000000000000, 12) := by decide

/-- V13. -/
theorem test_decode_add : decode [0x02, 0x01, 0x01, 0x0F, 0x00] = .ok (.add 15 0, 5) := by decide

/-- V54. -/
theorem test_decode_inc : decode [0x03, 0x01, 0x0F] = .ok (.inc 15, 3) := by decide

/-- 42_alu.md R110. -/
theorem test_decode_xor : decode [0x04, 0x01, 0x01, 0x01, 0x02] = .ok (.xor 1 2, 5) := by decide

/-- 43_compare.md R112. -/
theorem test_decode_cmp : decode [0x05, 0x01, 0x01, 0x01, 0x02] = .ok (.cmp 1 2, 5) := by decide

/-- V32. -/
theorem test_decode_jmp :
    decode [0x06, 0x03, 0x36, 0x01, 0, 0, 0, 0, 0, 0] = .ok (.jmp 310, 10) := by decide

/-- 44_branch.md R117. -/
theorem test_decode_jle : decode [0x07, 0x03, 0x77, 0, 0, 0, 0, 0, 0, 0] = .ok (.jle 119, 10) := by
  decide

/-- 44_branch.md R118; W1. -/
theorem test_decode_jg : decode [0x08, 0x03, 0x33, 0, 0, 0, 0, 0, 0, 0] = .ok (.jg 51, 10) := by
  decide

/-- V55. -/
theorem test_decode_exit : decode [0x09, 0x09] = .ok (.exit, 1) := by decide

/-- V40, V41, V42. -/
theorem test_decode_badOpcode :
    decode [0x00] = .error .badOpcode ∧ decode [0x0A] = .error .badOpcode ∧
    decode [0xFF] = .error .badOpcode := by decide

/-- V43, V44, V49, V50, V51, V56. -/
theorem test_decode_truncated :
    decode [0x01] = .error .truncated ∧ decode [0x05, 0x01] = .error .truncated ∧
    decode [0x01, 0x01, 0x01, 0x00] = .error .truncated ∧
    decode [0x01, 0x01, 0x02, 0x00, 0x01, 0x02] = .error .truncated ∧
    decode [0x06, 0x03, 0, 0, 0, 0, 0, 0, 0] = .error .truncated ∧
    decode [0x01, 0x04] = .error .truncated := by decide

/-- V45 to V48, V52, V53. -/
theorem test_decode_badOperands :
    decode [0x01, 0x04, 0x01] = .error .badDescriptor ∧
    decode [0x01, 0x03, 0x01] = .error .badForm ∧
    decode [0x02, 0x01, 0x02, 0, 0] = .error .badForm ∧
    decode [0x06, 0x01, 0x00] = .error .badForm ∧
    decode [0x01, 0x01, 0x01, 0x10, 0x00] = .error .badRegister ∧
    decode [0x01, 0x01, 0x01, 0x00, 0x10] = .error .badRegister := by decide

/-- The match values of spec/opcode_table.json, first byte most significant. -/
theorem test_tableWord_match :
    decodeTableWord 24 0x010101 = some (.movReg 0 0) ∧
    decodeTableWord 24 0x010102 = some (.movImm 0 0) ∧
    decodeTableWord 24 0x020101 = some (.add 0 0) ∧ decodeTableWord 16 0x0301 = some (.inc 0) ∧
    decodeTableWord 24 0x040101 = some (.xor 0 0) ∧ decodeTableWord 24 0x050101 = some (.cmp 0 0) ∧
    decodeTableWord 16 0x0603 = some (.jmp 0) ∧ decodeTableWord 16 0x0703 = some (.jle 0) ∧
    decodeTableWord 16 0x0803 = some (.jg 0) ∧ decodeTableWord 8 0x09 = some .exit := by decide

/-- A number that covers the whole instruction has its first byte in bits 7..0. -/
theorem test_tableWord_whole :
    decodeTableWord 40 0x0100010101 = some (.movReg 0 1) ∧
    decodeTableWord 96 0x2A03020101 = some (.movImm 3 42) := by decide

/-- The step after reset runs the placed instruction: `exit` retires with IP 1 (V35). -/
theorem test_withFetchWord :
    (nextOf (step (State.reset.withFetchWord 8 0x09))).map (fun t => (t.ip, t.cycle, t.halted)) =
      some (1, 1, true) := by decide

/-- Placed from a halted machine with IP past the end: `mov r3, 42` with its own bytes (V3). -/
theorem test_withFetchWord_halted :
    (nextOf (step (State.withFetchWord { State.reset with ip := 40, halted := true } 96
      0x2A03020101))).map (fun t => (t.ip, t.readGpr 3)) = some (52, 42) := by decide

/-! ## One step of each instruction -/

/-- V1. -/
theorem test_movReg :
    (stepWith [0x01, 0x01, 0x01, 0x00, 0x01] 0 1 0 7).map
      (fun t => (t.readGpr 0, t.readGpr 1, t.ip, t.cycle)) = some (7, 7, 5, 1) := by decide

/-- V2: one register as both operands. -/
theorem test_movReg_same :
    (stepWith [0x01, 0x01, 0x01, 0x0F, 0x0F] 15 0 9 0).map (fun t => (t.readGpr 15, t.ip)) =
      some (9, 5) := by decide

/-- V4. -/
theorem test_movImm :
    (stepWith [0x01, 0x01, 0x02, 0x03, 0xFF, 0xFF, 0xFF, 0xFF, 0xFF, 0xFF, 0xFF, 0xFF] 3 0 5 0).map
      (fun t => (t.readGpr 3, t.ip)) = some (0xFFFFFFFFFFFFFFFF, 12) := by decide

/-- V8: RF stays LESS. -/
theorem test_movImm_rf :
    (nextOf (step ((start [0x01, 0x01, 0x02, 0, 0, 0, 0, 0, 0, 0, 0, 0]).writeRf 1))).map
      (fun t => (t.readGpr 0, t.rf)) = some (0, 1) := by decide

/-- V10: the sum wraps. -/
theorem test_add_wraps :
    (stepWith [0x02, 0x01, 0x01, 0x00, 0x01] 0 1 0xFFFFFFFFFFFFFFFF 1).map
      (fun t => (t.readGpr 0, t.readGpr 1, t.rf, t.ip)) = some (0, 1, 0, 5) := by decide

/-- V12: one register as both operands. -/
theorem test_add_same :
    (stepWith [0x02, 0x01, 0x01, 0x02, 0x02] 2 2 0 0x8000000000000000).map
      (fun t => t.readGpr 2) = some 0 := by decide

/-- V14. -/
theorem test_inc :
    (stepWith [0x03, 0x01, 0x00] 0 1 41 0).map (fun t => (t.readGpr 0, t.ip)) = some (42, 3) := by
  decide

/-- V15: it wraps. -/
theorem test_inc_wraps :
    (stepWith [0x03, 0x01, 0x0F] 15 0 0xFFFFFFFFFFFFFFFF 0).map (fun t => (t.readGpr 15, t.rf)) =
      some (0, 0) := by decide

/-- V16. -/
theorem test_xor :
    (stepWith [0x04, 0x01, 0x01, 0x00, 0x01] 0 1 0b1100 0b1010).map
      (fun t => (t.readGpr 0, t.readGpr 1, t.ip)) = some (0b0110, 0b1010, 5) := by decide

/-- V17. -/
theorem test_xor_same :
    (stepWith [0x04, 0x01, 0x01, 0x04, 0x04] 4 4 0 0x123456789ABCDEF0).map
      (fun t => t.readGpr 4) = some 0 := by decide

/-- V23: unsigned, so GREATER. -/
theorem test_cmp_unsigned :
    (stepWith [0x05, 0x01, 0x01, 0x00, 0x01] 0 1 0xFFFFFFFFFFFFFFFF 0).map
      (fun t => (t.rf, t.ip)) = some (4, 5) := by decide

/-- V19, V20. -/
theorem test_cmp_equal_less :
    (stepWith [0x05, 0x01, 0x01, 0x00, 0x01] 0 1 0 0).map (fun t => t.rf) = some 2 ∧
    (stepWith [0x05, 0x01, 0x01, 0x00, 0x01] 0 1 0 1).map (fun t => t.rf) = some 1 := by decide

/-- V27, V30: `jmp` ignores RF. -/
theorem test_jmp :
    (nextOf (step (jumpAt29 0x06 1))).map (fun t => (t.ip, t.cycle)) = some (51, 1) ∧
    (nextOf (step (jumpAt29 0x06 0))).map (fun t => t.ip) = some 51 := by decide

/-- V27, V28, V29. -/
theorem test_jle :
    (nextOf (step (jumpAt29 0x07 1))).map (fun t => t.ip) = some 51 ∧
    (nextOf (step (jumpAt29 0x07 2))).map (fun t => t.ip) = some 51 ∧
    (nextOf (step (jumpAt29 0x07 4))).map (fun t => t.ip) = some 39 := by decide

/-- V27, V28, V29. -/
theorem test_jg :
    (nextOf (step (jumpAt29 0x08 1))).map (fun t => t.ip) = some 39 ∧
    (nextOf (step (jumpAt29 0x08 2))).map (fun t => t.ip) = some 39 ∧
    (nextOf (step (jumpAt29 0x08 4))).map (fun t => t.ip) = some 51 := by decide

/-- V30: RF NONE under each policy. -/
theorem test_jle_unset :
    faultOf (step (startFault [0x07, 0x03, 0, 0, 0, 0, 0, 0, 0, 0])) = some .rfUnset ∧
    (nextOf (step (jumpAt29 0x07 0))).map (fun t => t.ip) = some 39 := by decide

/-- V30. -/
theorem test_jg_unset :
    faultOf (step (startFault [0x08, 0x03, 0, 0, 0, 0, 0, 0, 0, 0])) = some .rfUnset ∧
    (nextOf (step (jumpAt29 0x08 0))).map (fun t => t.ip) = some 39 := by decide

/-- V35: the step that retires `exit`, and V36, V37 after it. -/
theorem test_exit :
    (singleStep (start [0x09])).1 = .continued ∧
    (singleStep (singleStep (start [0x09])).2).1 = .halted ∧
    (executeFor 0 (singleStep (start [0x09])).2).map (fun p => (p.1, p.2.ip, p.2.cycle)) =
      some (.done, 1, 1) := by decide

/-! ## Host operations and the assembler -/

/-- V84, V85, V86. -/
theorem test_queries :
    readReg 18 (start []) = .indexError ∧ readReg (-1) (start []) = .indexError ∧
    readReg 17 (start []) = .value 0 ∧ getCycle (start []) = .value 0 := by decide

/-- V82. -/
theorem test_noVm :
    readReg 0 (State.powerOn Params.atReset) = .refused .noVm ∧
    getCycle (State.powerOn Params.atReset) = .refused .noVm := by decide

/-- V88. -/
theorem test_emptyBytecode : singleStep (start []) = (.runtimeError (.decodeError .pastEnd), start []) := by
  decide

set_option maxRecDepth 4000 in
/-- V57 and V70. -/
theorem test_compile :
    compile (ascii "mov R15, r0") = .ok [0x01, 0x01, 0x01, 0x0F, 0x00] ∧
    compile (ascii "mov r0, 007") = .ok [0x01, 0x01, 0x02, 0, 7, 0, 0, 0, 0, 0, 0, 0] := by decide

set_option maxRecDepth 4000 in
/-- V58, V60, V62, V67, V71, V72. -/
theorem test_compile_errors :
    compile (ascii "MOV r0, 1") = .error { line := 1, kind := .unknownMnemonic } ∧
    compile (ascii "add r0") = .error { line := 1, kind := .wrongOperandCount } ∧
    compile (ascii "add r0, 5") = .error { line := 1, kind := .wrongOperandKind } ∧
    compile (ascii "mov ip, 1") = .error { line := 1, kind := .reservedRegister } ∧
    compile (ascii "mov r0, 0x10") = .error { line := 1, kind := .malformedOperand } ∧
    compile (ascii "mov r0,, r1") = .error { line := 1, kind := .malformedOperand } := by decide

set_option maxRecDepth 4000 in
/-- V73 to V79. -/
theorem test_compile_labels :
    compile (ascii "a:\na:\nexit") = .error { line := 2, kind := .duplicateLabel } ∧
    compile (ascii "r3:\nexit") = .error { line := 1, kind := .labelIsRegisterName } ∧
    compile (ascii "1abc:\nexit") = .error { line := 1, kind := .malformedLabel } ∧
    compile (ascii "x: exit") = .error { line := 1, kind := .unknownMnemonic } ∧
    compile (ascii "exit\nend:") = .ok [0x09] ∧
    compile (ascii "jmp Loop\nloop:\nexit") =
      .error { line := 1, kind := .undefinedLabel (ascii "Loop") } ∧
    compile (ascii "jmp undefined_a\nfoo") = .error { line := 2, kind := .unknownMnemonic } := by
  decide

/-! ## Witnesses: decoding and the step -/

/-- A running state whose bytes at IP decode to an instruction that answers a given state. -/
theorem retires_of {s t : State} {i : Instr} {w : Nat} (hp : s.vmPresent = true)
    (hh : s.halted = false) (hd : s.fetchDecode = .ok (i, w)) (he : exec i s = .next t) :
    Retires s i t := ⟨⟨hp, hh⟩, ⟨w, hd⟩, he⟩

theorem witness_DecodedBytesAreTheEncoding :
    decode [0x09] = .ok (.exit, Instr.exit.width) ∧
    List.take Instr.exit.width [0x09] = encode .exit ∧ decode [] = .error .pastEnd := by decide

/-- At the boundary IP = `len(B)` = 0 (V39). -/
theorem witness_DecodeChecksInOrder_pastEnd :
    (start []).Running ∧ (start []).bytecode.len ≤ (start []).ip.toNat ∧
    faultOf (step (start [])) = some (.decodeError .pastEnd) := ⟨⟨rfl, rfl⟩, by decide, by decide⟩

/-- The boundary opcodes 0x00 and 0x0A (V40, V41). -/
theorem witness_DecodeChecksInOrder_badOpcode :
    (start [0x00]).Running ∧ (start [0x00]).bytecode.read 0 = some 0x00 ∧
    faultOf (step (start [0x00])) = some (.decodeError .badOpcode) ∧
    (start [0x0A]).Running ∧ (start [0x0A]).bytecode.read 0 = some 0x0A ∧
    faultOf (step (start [0x0A])) = some (.decodeError .badOpcode) :=
  ⟨⟨rfl, rfl⟩, by decide, by decide, ⟨rfl, rfl⟩, by decide, by decide⟩

/-- One descriptor byte too few (V44). -/
theorem witness_DecodeChecksInOrder_truncatedDescriptors :
    (start [0x05, 0x01]).Running ∧
    (start [0x05, 0x01]).bytecode.read 0 = some Mnemonic.cmp.opcode ∧
    (start [0x05, 0x01]).bytecode.len < 0 + 1 + Mnemonic.cmp.arity ∧
    faultOf (step (start [0x05, 0x01])) = some (.decodeError .truncated) :=
  ⟨⟨rfl, rfl⟩, by decide, by decide, by decide⟩

/-- The boundary descriptors 0x04 and 0x00, with just enough bytes (V45). -/
theorem witness_DecodeChecksInOrder_badDescriptor :
    (start [0x01, 0x04, 0x01]).Running ∧
    (start [0x01, 0x04, 0x01]).bytecode.read 0 = some Mnemonic.mov.opcode ∧
    0 + 1 + Mnemonic.mov.arity ≤ (start [0x01, 0x04, 0x01]).bytecode.len ∧
    (start [0x01, 0x04, 0x01]).bytecode.read (0 + 1 + 0) = some 0x04 ∧
    faultOf (step (start [0x01, 0x04, 0x01])) = some (.decodeError .badDescriptor) ∧
    (start [0x03, 0x00]).bytecode.read (0 + 1 + 0) = some 0x00 ∧
    faultOf (step (start [0x03, 0x00])) = some (.decodeError .badDescriptor) :=
  ⟨⟨rfl, rfl⟩, by decide, by decide, by decide, by decide, by decide, by decide⟩

/-- `mov addr, reg` is no form (V46). -/
theorem witness_DecodeChecksInOrder_badForm :
    (start [0x01, 0x03, 0x01]).Running ∧
    (start [0x01, 0x03, 0x01]).bytecode.read 0 = some Mnemonic.mov.opcode ∧
    [OperandKind.addr, OperandKind.reg].length = Mnemonic.mov.arity ∧
    (start [0x01, 0x03, 0x01]).bytecode.Holds (0 + 1)
      ([OperandKind.addr, OperandKind.reg].map OperandKind.descriptor) ∧
    Mnemonic.mov.admits [.addr, .reg] = false ∧
    faultOf (step (start [0x01, 0x03, 0x01])) = some (.decodeError .badForm) :=
  ⟨⟨rfl, rfl⟩, by decide, by decide, by unfold Memory.Holds; decide, by decide, by decide⟩

/-- One payload byte too few (V49). -/
theorem witness_DecodeChecksInOrder_truncatedPayloads :
    (start [0x01, 0x01, 0x01, 0x00]).Running ∧
    (start [0x01, 0x01, 0x01, 0x00]).bytecode.read 0 = some Mnemonic.mov.opcode ∧
    [OperandKind.reg, OperandKind.reg].length = Mnemonic.mov.arity ∧
    (start [0x01, 0x01, 0x01, 0x00]).bytecode.Holds (0 + 1)
      ([OperandKind.reg, OperandKind.reg].map OperandKind.descriptor) ∧
    Mnemonic.mov.admits [.reg, .reg] = true ∧
    (start [0x01, 0x01, 0x01, 0x00]).bytecode.len <
      0 + 1 + Mnemonic.mov.arity + payloadsWidth [.reg, .reg] ∧
    faultOf (step (start [0x01, 0x01, 0x01, 0x00])) = some (.decodeError .truncated) :=
  ⟨⟨rfl, rfl⟩, by decide, by decide, by unfold Memory.Holds; decide, by decide, by decide, by decide⟩

/-- The boundary register 16, in the second operand (V53). -/
theorem witness_DecodeChecksInOrder_badRegister :
    (start [0x01, 0x01, 0x01, 0x00, 0x10]).Running ∧
    (start [0x01, 0x01, 0x01, 0x00, 0x10]).bytecode.read 0 = some Mnemonic.mov.opcode ∧
    [OperandKind.reg, OperandKind.reg].length = Mnemonic.mov.arity ∧
    (start [0x01, 0x01, 0x01, 0x00, 0x10]).bytecode.Holds (0 + 1)
      ([OperandKind.reg, OperandKind.reg].map OperandKind.descriptor) ∧
    Mnemonic.mov.admits [.reg, .reg] = true ∧
    0 + 1 + Mnemonic.mov.arity + payloadsWidth [.reg, .reg] ≤
      (start [0x01, 0x01, 0x01, 0x00, 0x10]).bytecode.len ∧
    [OperandKind.reg, OperandKind.reg][1]? = some .reg ∧
    (start [0x01, 0x01, 0x01, 0x00, 0x10]).bytecode.read
      (0 + 1 + Mnemonic.mov.arity + payloadsWidth ([OperandKind.reg, OperandKind.reg].take 1)) =
      some 0x10 ∧
    faultOf (step (start [0x01, 0x01, 0x01, 0x00, 0x10])) = some (.decodeError .badRegister) :=
  ⟨⟨rfl, rfl⟩, by decide, by decide, by unfold Memory.Holds; decide, by decide, by decide, by decide,
    by decide, by decide⟩

theorem witness_StepRunsTheDecodedInstruction :
    (start [0x03, 0x01, 0x0F]).Running ∧ (start [0x03, 0x01, 0x0F]).fetchDecode = .ok (.inc 15, 3) :=
  ⟨⟨rfl, rfl⟩, by decide⟩

/-- The instruction ends exactly at `len(B)`. -/
theorem witness_BytesAtIpRun :
    (start [0x03, 0x01, 0x0F]).Running ∧ (start [0x03, 0x01, 0x0F]).bytecode.Holds 0 (encode (.inc 15)) :=
  ⟨⟨rfl, rfl⟩, by unfold Memory.Holds; decide⟩

/-- The counter at 2^64 - 1. -/
theorem witness_EveryRetirementCountsOneCycle :
    State.Running { start [0x09] with cycle := 0xFFFFFFFFFFFFFFFF } ∧
    (nextOf (step { start [0x09] with cycle := 0xFFFFFFFFFFFFFFFF })).map (fun t => t.cycle) =
      some 0 := ⟨⟨rfl, rfl⟩, by decide⟩

/-- An invariant state whose instruction ends exactly at `len(B)`. -/
theorem witness_IpNeverWraps :
    (start [0x09]).Inv ∧ (start [0x09]).fetchDecode = .ok (.exit, 1) :=
  ⟨⟨by decide, by decide, by decide, .inl rfl⟩, by decide⟩

/-! ## Witnesses: instructions -/

theorem witness_TakenJumpSetsIpToTarget_jmp :
    targetOf (.jmp 0xFFFFFFFFFFFFFFFF) = some 0xFFFFFFFFFFFFFFFF ∧
    ((nextOf (exec (.jmp 0xFFFFFFFFFFFFFFFF) (start [0x09]))).map
      (fun u => (u.vmPresent, u.halted, decide (u.bytecode.len ≤ u.ip.toNat), faultOf (step u)))) =
      some (true, false, true, some (.decodeError .pastEnd)) := by decide

/-- The target is `len(B)` exactly. -/
theorem witness_TakenJumpSetsIpToTarget_jle :
    targetOf (.jle 1) = some 1 ∧ ((start [0x09]).writeRf 1).rf ≠ 0 ∧
    ((start [0x09]).writeRf 1).rf = ((start [0x09]).writeRf 1).params.rfCodes.less ∧
    ((start [0x09]).writeRf 2).rf ≠ 0 ∧
    ((start [0x09]).writeRf 2).rf = ((start [0x09]).writeRf 2).params.rfCodes.equal ∧
    ((nextOf (exec (.jle 1) ((start [0x09]).writeRf 1))).map
      (fun u => (u.halted, decide (u.bytecode.len ≤ u.ip.toNat)))) = some (false, true) := by decide

theorem witness_TakenJumpSetsIpToTarget_jg :
    targetOf (.jg 1) = some 1 ∧ ((start [0x09]).writeRf 4).rf ≠ 0 ∧
    ((start [0x09]).writeRf 4).rf = ((start [0x09]).writeRf 4).params.rfCodes.greater := by decide

/-- V31. -/
theorem witness_JmpMovesIp_selfJump :
    (start [0x06, 0x03, 0, 0, 0, 0, 0, 0, 0, 0]).Running ∧
    (start [0x06, 0x03, 0, 0, 0, 0, 0, 0, 0, 0]).bytecode.Holds 0 (encode (.jmp 0)) :=
  ⟨⟨rfl, rfl⟩, by unfold Memory.Holds; decide⟩

/-- V33. -/
theorem witness_JmpMovesIp_toEnd :
    (start [0x06, 0x03, 10, 0, 0, 0, 0, 0, 0, 0]).Running ∧
    (start [0x06, 0x03, 10, 0, 0, 0, 0, 0, 0, 0]).bytecode.Holds 0 (encode (.jmp 10)) ∧
    (10 : Word).toNat = (start [0x06, 0x03, 10, 0, 0, 0, 0, 0, 0, 0]).bytecode.len :=
  ⟨⟨rfl, rfl⟩, by unfold Memory.Holds; decide, rfl⟩

theorem witness_JleJumpsOnLessOrEqual_unset :
    (startFault []).rf = 0 ∧ (startFault []).params.unsetRf = .fault ∧
    (start []).rf = 0 ∧ (start []).params.unsetRf = .notTaken := by decide

theorem witness_JleJumpsOnLessOrEqual_set :
    (jumpAt29 0x07 1).rf ≠ 0 ∧ (jumpAt29 0x07 1).rf = (jumpAt29 0x07 1).params.rfCodes.less ∧
    (jumpAt29 0x07 2).rf ≠ 0 ∧ (jumpAt29 0x07 2).rf = (jumpAt29 0x07 2).params.rfCodes.equal ∧
    (jumpAt29 0x07 4).rf ≠ 0 ∧ (jumpAt29 0x07 4).rf ≠ (jumpAt29 0x07 4).params.rfCodes.less ∧
    (jumpAt29 0x07 4).rf ≠ (jumpAt29 0x07 4).params.rfCodes.equal := by decide

theorem witness_JgJumpsOnGreater_unset :
    (startFault []).rf = 0 ∧ (startFault []).params.unsetRf = .fault ∧
    (start []).rf = 0 ∧ (start []).params.unsetRf = .notTaken := by decide

theorem witness_JgJumpsOnGreater_set :
    (jumpAt29 0x08 4).rf ≠ 0 ∧ (jumpAt29 0x08 4).rf = (jumpAt29 0x08 4).params.rfCodes.greater ∧
    (jumpAt29 0x08 1).rf ≠ 0 ∧ (jumpAt29 0x08 1).rf ≠ (jumpAt29 0x08 1).params.rfCodes.greater ∧
    (jumpAt29 0x08 2).rf ≠ 0 ∧ (jumpAt29 0x08 2).rf ≠ (jumpAt29 0x08 2).params.rfCodes.greater := by
  decide

theorem witness_ExitHaltsAfterRetiring :
    (start [0x09]).Running ∧ (start [0x09]).bytecode.read (start [0x09]).ip.toNat = some 0x09 :=
  ⟨⟨rfl, rfl⟩, by decide⟩

/-- R0 and R1 in each of the three relations. -/
theorem witness_CmpRecordsUnsignedRelation :
    (((start []).writeGpr 1 1).readGpr 0).toNat < (((start []).writeGpr 1 1).readGpr 1).toNat ∧
    ((start []).readGpr 0).toNat = ((start []).readGpr 1).toNat ∧
    (((start []).writeGpr 0 1).readGpr 1).toNat < (((start []).writeGpr 0 1).readGpr 0).toNat := by
  decide

/-- V17's operands, and the top bit. -/
theorem witness_XorIsBitwise : (4 : Reg) = 4 ∧ 63 < 64 := by decide

/-- A GPR kept by `inc`, RF and the halted flag kept by it. -/
theorem witness_ExecFrame :
    (∃ t, exec (.inc 4) (start []) = .next t) ∧ gprDest (.inc 4) ≠ some 5 ∧ ¬ IsCmp (.inc 4) ∧
    Instr.inc 4 ≠ .exit := ⟨⟨_, rfl⟩, by decide, id, by decide⟩

theorem witness_OnlyConditionalJumpsReadRf :
    (¬ IsConditionalJump (.cmp 0 1) ∧ (∃ t, exec (.cmp 0 1) (start []) = .next t) ∧ IsCmp (.cmp 0 1)) ∧
    (¬ IsConditionalJump (.inc 0) ∧ ∃ t, exec (.inc 0) (start []) = .next t) :=
  ⟨⟨id, ⟨_, rfl⟩, trivial⟩, id, ⟨_, rfl⟩⟩

theorem witness_IpUpdate_jumps :
    (∃ t, Retires (jumpAt29 0x06 0) (.jmp 51) t) ∧ (∃ t, Retires (jumpAt29 0x07 1) (.jle 51) t) ∧
    (∃ t, Retires (jumpAt29 0x07 4) (.jle 51) t) ∧ (∃ t, Retires (jumpAt29 0x08 4) (.jg 51) t) ∧
    (∃ t, Retires (jumpAt29 0x08 1) (.jg 51) t) :=
  ⟨⟨_, retires_of rfl rfl (w := 10) (by decide) rfl⟩, ⟨_, retires_of rfl rfl (w := 10) (by decide) rfl⟩,
    ⟨_, retires_of rfl rfl (w := 10) (by decide) rfl⟩, ⟨_, retires_of rfl rfl (w := 10) (by decide) rfl⟩,
    ⟨_, retires_of rfl rfl (w := 10) (by decide) rfl⟩⟩

theorem witness_IpUpdate_fallThrough :
    (∃ t, Retires (start [0x09]) .exit t) ∧ targetOf .exit = none :=
  ⟨⟨_, retires_of rfl rfl (w := 1) (by decide) rfl⟩, rfl⟩

/-- The error happens, and only there. -/
theorem witness_RfUnsetExactlyUnderFaultPolicy :
    exec (.jle 0) (startFault [0x07, 0x03, 0, 0, 0, 0, 0, 0, 0, 0]) = .fault .rfUnset ∧
    IsConditionalJump (.jle 0) ∧ (startFault [0x07, 0x03, 0, 0, 0, 0, 0, 0, 0, 0]).rf = 0 ∧
    (startFault [0x07, 0x03, 0, 0, 0, 0, 0, 0, 0, 0]).params.unsetRf = .fault ∧
    (startFault [0x07, 0x03, 0, 0, 0, 0, 0, 0, 0, 0]).Running ∧
    (startFault [0x07, 0x03, 0, 0, 0, 0, 0, 0, 0, 0]).fetchDecode = .ok (.jle 0, 10) :=
  ⟨rfl, trivial, rfl, rfl, ⟨rfl, rfl⟩, by decide⟩

/-- The later state is the one after an `inc`. -/
theorem witness_BranchesDecideTheComparison :
    (start []).params.rfCodes.Valid ∧
    ∃ t u, exec (.cmp 0 1) (start []) = .next t ∧ exec (.inc 3) t = .next u ∧ u.rf = t.rf ∧
      u.params = t.params := ⟨by decide, _, _, rfl, rfl, rfl, rfl⟩

/-! ## Witnesses: runs and host operations -/

theorem witness_CycleCountAtHalt :
    ∃ t, RetiresAll (State.reset.initVm [0x09]) [.exit] t ∧ t.halted = true :=
  ⟨_, RetiresAll.single (retires_of rfl rfl (w := 1) (by decide) rfl), rfl⟩

theorem witness_OnlyCmpAndInitChangeRf :
    ¬ Command.singleStep.IsInit ∧
    ∃ t r, perform 0 .singleStep (start [0x03, 0x01, 0x0F]) = some (r, t) ∧ r = .continued :=
  ⟨id, _, _, rfl, by decide⟩

theorem witness_OnlyExitSetsHalted :
    ((start [0x09]).halted = false ∧ ∃ t r, perform 1 .execute (start [0x09]) = some (r, t) ∧
      t.halted = true) ∧
    executeFor 1 (start []) = some (.runtimeError (.decodeError .pastEnd), start []) :=
  ⟨⟨rfl, _, _, rfl, rfl⟩, by decide⟩

/-- V88: the error of the empty bytecode, by `single_step` and by `execute`. -/
theorem witness_RuntimeErrorWritesNothing :
    singleStep (start []) = (.runtimeError (.decodeError .pastEnd), start []) ∧
    executeFor 1 (start []) = some (.runtimeError (.decodeError .pastEnd), start []) ∧
    (∀ c ∈ [Command.getCycle, .execute], ¬ c.IsInit) := ⟨by decide, by decide, by
      intro c hc
      simp only [List.mem_cons, List.not_mem_nil, or_false] at hc
      rcases hc with rfl | rfl <;> exact id⟩

theorem witness_ExitFinality :
    (singleStep (start [0x09])).2.vmPresent = true ∧ (singleStep (start [0x09])).2.halted = true ∧
    ∀ c ∈ [Command.singleStep], ¬ c.IsInit := ⟨by decide, by decide, by
      intro c hc
      simp only [List.mem_cons, List.not_mem_nil, or_false] at hc
      rcases hc with rfl
      exact id⟩

/-- Both sides of both equivalences are met. -/
theorem witness_ExecuteEqualsSingleSteps :
    (executeFor 1 (start [0x09])).map Prod.fst = some .done ∧
    (singleStepUntil 2 (start [0x09])).map Prod.fst = some .halted ∧
    (executeFor 1 (start [0x00])).map Prod.fst = some (.runtimeError (.decodeError .badOpcode)) ∧
    (singleStepUntil 1 (start [0x00])).map Prod.fst =
      some (.runtimeError (.decodeError .badOpcode)) := by decide

/-- The state of V31, with any cycle count. -/
def selfJump (c : Word) : State := { start [0x06, 0x03, 0, 0, 0, 0, 0, 0, 0, 0] with cycle := c }

/-- V31: a step of the jump to itself counts a cycle and changes nothing else. -/
theorem test_selfJump (c : Word) : (selfJump c).retireOne = .next (selfJump (c + 1)) := by
  have hd : (selfJump c).fetchDecode = .ok (.jmp 0, 10) :=
    show (start [0x06, 0x03, 0, 0, 0, 0, 0, 0, 0, 0]).fetchDecode = .ok (.jmp 0, 10) by decide
  simp only [State.retireOne, hd]
  rfl

/-- V31: `execute` of a jump to itself returns for no number of retirements. -/
theorem witness_ExecuteHangsExactlyOnEndlessRuns : ExecuteHangs (selfJump 0) := by
  have key : ∀ (n : Nat) (c : Word), executeFor n (selfJump c) = none := by
    intro n
    induction n with
    | zero => exact fun c => executeFor_zero ⟨rfl, rfl⟩
    | succ n ih =>
      intro c
      rw [executeFor_next ⟨rfl, rfl⟩ (test_selfJump c)]
      exact ih _
  exact fun n => key n 0

theorem witness_InitVmSetsEverything : ([] : List Byte).length < 2 ^ 64 := by decide

theorem witness_InitVmDiscardsThePreviousVm :
    (start [0x09]).params = (singleStep (start [0x09])).2.params ∧
    start [0x09] ≠ (singleStep (start [0x09])).2 := by decide

/-- The indices just outside the range. -/
theorem witness_ReadRegByIndex :
    (start []).vmPresent = true ∧ ((-1 : Int) < 0 ∨ 17 < (-1 : Int)) ∧
    ((18 : Int) < 0 ∨ 17 < (18 : Int)) := by decide

theorem witness_WithoutVmOperationsAreRefused :
    (start []).vmPresent = true ∧ (State.powerOn Params.atReset).vmPresent = false ∧
    ∀ c ∈ [Command.getCycle], ¬ c.IsInit := ⟨rfl, rfl, by
      intro c hc
      simp only [List.mem_cons, List.not_mem_nil, or_false] at hc
      rcases hc with rfl
      exact id⟩

theorem witness_BytecodeChangesByInitVmOnly :
    performAll 1 [.execute, .readReg 0] (start [0x09]) =
      some ([.done, .value 1], (singleStep (start [0x09])).2) ∧ (start [0x09]).vmPresent = true ∧
    ∀ c ∈ [Command.execute, .readReg 0], ¬ c.IsInit := ⟨by decide, rfl, by
      intro c hc
      simp only [List.mem_cons, List.not_mem_nil, or_false] at hc
      rcases hc with rfl | rfl <;> exact id⟩

theorem witness_InvAtResetAndInit :
    Params.atReset.rfCodes.Valid ∧ State.reset.params.rfCodes.Valid ∧
    ([] : List Byte).length < 2 ^ 64 := by decide

theorem witness_StepKeepsInv :
    (start [0x05, 0x01, 0x01, 0x00, 0x01]).Inv ∧
    ∃ t, step (start [0x05, 0x01, 0x01, 0x00, 0x01]) = .next t ∧ t.rf = 2 :=
  ⟨⟨by decide, by decide, by decide, .inl rfl⟩, _, rfl, by decide⟩

theorem witness_HostOperationsKeepInv :
    (start []).Inv ∧ ∃ t rs, performAll 1 [.initVm [0x09], .execute] (start []) = some (rs, t) ∧
      t.halted = true :=
  ⟨⟨by decide, by decide, by decide, .inl rfl⟩, _, _, rfl, by decide⟩

/-- A bytecode with a zero byte, bound and written out. -/
theorem witness_CanonicalBytecodeIsUnique :
    (Memory.ofBytes [1, 0]).wf = true ∧ Memory.wf { len := 2, cells := [(0, 1)] } = true ∧
    (Memory.ofBytes [1, 0]).len = 2 ∧
    ∀ a, (Memory.ofBytes [1, 0]).read a = Memory.read { len := 2, cells := [(0, 1)] } a :=
  ⟨by decide, by decide, rfl, fun _ => rfl⟩

/-! ## Witnesses: the assembler -/

/-- The boundary literals: 2^64 - 1, 2^64, -2^63 and -2^63 - 1. -/
theorem witness_LiteralsEncodeModulo :
    (ascii "18446744073709551615" ≠ [] ∧
      (∀ d ∈ ascii "18446744073709551615", 0x30 ≤ d.toNat ∧ d.toNat ≤ 0x39)) ∧
    (decimalValue (ascii "18446744073709551615") = 2 ^ 64 - 1 ∧
      decimalValue (ascii "18446744073709551616") = 2 ^ 64 ∧
      decimalValue (ascii "9223372036854775808") = 2 ^ 63 ∧
      decimalValue (ascii "9223372036854775809") = 2 ^ 63 + 1) := by decide

theorem test_literals :
    classifyOperand (ascii "18446744073709551615") = .ok (.imm 0xFFFFFFFFFFFFFFFF) ∧
    classifyOperand (ascii "18446744073709551616") = .error .immediateOutOfRange ∧
    classifyOperand (ascii "-9223372036854775808") = .ok (.imm 0x8000000000000000) ∧
    classifyOperand (ascii "-9223372036854775809") = .error .immediateOutOfRange := by decide

/-- A token of each class, at the edges of the register class. -/
theorem witness_OperandClasses :
    classifyOperand (ascii "R15") = .ok (.reg 15) ∧ classifyOperand (ascii "r9") = .ok (.reg 9) ∧
    classifyOperand (ascii "r16") = .ok (.label (ascii "r16")) ∧
    classifyOperand (ascii "r00") = .ok (.label (ascii "r00")) ∧
    classifyOperand (ascii "Ip") = .error .reservedRegister ∧
    classifyOperand (ascii "007") = .ok (.imm 7) ∧ classifyOperand (ascii "-0") = .ok (.imm 0) ∧
    classifyOperand (ascii "0x10") = .error .malformedOperand ∧
    classifyOperands [ascii "r1", ascii "rf", ascii "+5"] = .error .reservedRegister := by decide

theorem witness_CommentsAreIgnored :
    ∀ p ∈ [(ascii "exit", ascii " stop\r")],
      (0x0A : Byte) ∉ p.1 ∧ p.1.getLast? ≠ some 0x0D ∧ (0x0A : Byte) ∉ p.2 := by decide

/-- `[A-Za-z_]` and `[A-Za-z0-9_]` (R72), and white space (R71). -/
theorem test_characterClasses :
    (∀ b : Byte, isIdentStart b = true ↔
      b ∈ ascii "ABCDEFGHIJKLMNOPQRSTUVWXYZ_abcdefghijklmnopqrstuvwxyz") ∧
    (∀ b : Byte, isDigit b = true ↔ b ∈ ascii "0123456789") ∧
    (∀ b : Byte, isSpace b = true ↔ b ∈ ascii " \t") := by decide

theorem witness_LineEndsAndWhitespaceAreIgnored :
    ∀ p ∈ [(ascii " ", ascii "inc r1 ; up", ascii "\t"), ([], [], [])],
      (∀ b ∈ p.1, b = 0x20 ∨ b = 0x09) ∧ (0x0A : Byte) ∉ p.2.1 ∧
      p.2.1.getLast? ≠ some 0x0D ∧ (∀ b ∈ p.2.2, b = 0x20 ∨ b = 0x09) := by decide

/-- V58, and a line that parses. -/
theorem witness_MnemonicsAreExactlyTheNine :
    parseInstruction (ascii "MOV") (ascii "r0, 1") = .error .unknownMnemonic ∧
    parseInstruction (ascii "inc") (ascii "r1") = .ok (.inc, [.reg 1]) := by decide

theorem witness_OperandTextSplitsAtCommas :
    (∀ p ∈ [([], ascii "r1", ascii " "), (ascii " \t", ascii "5", [])],
      (∀ b ∈ p.1, b = 0x20 ∨ b = 0x09) ∧ (∀ b ∈ p.2.2, b = 0x20 ∨ b = 0x09) ∧
      (0x2C : Byte) ∉ p.2.1 ∧ (∀ b, p.2.1.head? = some b → b ≠ 0x20 ∧ b ≠ 0x09) ∧
      (∀ b, p.2.1.getLast? = some b → b ≠ 0x20 ∧ b ≠ 0x09)) ∧
    operandTokens (ascii "r1 , \t5") = [ascii "r1", ascii "5"] := by decide

/-- A line that stops at each check, in order, and one that passes (V72, V60, V67, V62). -/
theorem witness_InstructionLineChecksInOrder :
    ([] ∈ operandTokens (ascii "r0,") ∧
      parseInstruction (ascii "add") (ascii "r0,") = .error .malformedOperand) ∧
    ([] ∉ operandTokens (ascii "ip") ∧ (operandTokens (ascii "ip")).length ≠ 2 ∧
      parseInstruction (ascii "add") (ascii "ip") = .error .wrongOperandCount) ∧
    ([] ∉ operandTokens (ascii "ip, 1") ∧ (operandTokens (ascii "ip, 1")).length = 2 ∧
      classifyOperands (operandTokens (ascii "ip, 1")) = .error .reservedRegister ∧
      parseInstruction (ascii "mov") (ascii "ip, 1") = .error .reservedRegister) ∧
    (classifyOperands (operandTokens (ascii "r0, 5")) = .ok [.reg 0, .imm 5] ∧
      parseInstruction (ascii "add") (ascii "r0, 5") = .error .wrongOperandKind ∧
      parseInstruction (ascii "mov") (ascii "r0, 5") = .ok (.mov, [.reg 0, .imm 5])) := by decide

/-- A label line, a blank line and an instruction line. -/
theorem witness_EveryInstructionLineEmitsOne :
    pass1 1 0 [] [ascii "x:", ascii " ; none", ascii "inc r1"] =
      .ok { insts := [⟨3, .inc, [.reg 1]⟩], sym := [(ascii "x", 0)], total := 3 } ∧
    lexLine (ascii "inc r1") = .instruction (ascii "inc") (ascii "r1") := by decide

/-- One name for each check: V75, V74, V73, and one that passes. -/
theorem witness_LabelNamesAreLegalAndDistinct :
    isIdent (ascii "1abc") = false ∧
    (isIdent (ascii "R3") = true ∧ isDecimal (ascii "3") = true ∧
      labelError [] (ascii "R3") = some .labelIsRegisterName) ∧
    (isIdent (ascii "iP") = true ∧ labelError [] (ascii "iP") = some .labelIsRegisterName) ∧
    (isIdent (ascii "a") = true ∧ labelError [(ascii "a", 0)] (ascii "a") = some .duplicateLabel) ∧
    labelError [(ascii "a", 0)] (ascii "A") = none ∧
    pass1 1 0 [] [ascii "mov:", ascii "b:"] =
      .ok { insts := [], sym := [(ascii "b", 0), (ascii "mov", 0)], total := 0 } := by decide

set_option maxRecDepth 4000 in
/-- With an instruction after the label, and with none (V77). -/
theorem witness_LabelsBindToTheNextInstruction :
    lexLine (ascii "end:") = .label (ascii "end") ∧
    pass1 1 0 [] ([ascii "exit"] ++ ascii "end:" :: []) =
      .ok { insts := [⟨1, .exit, []⟩], sym := [(ascii "end", 1)], total := 1 } ∧
    pass1 1 0 [] ([ascii "exit"] ++ ascii "end:" :: [ascii "exit"]) =
      .ok { insts := [⟨1, .exit, []⟩, ⟨3, .exit, []⟩], sym := [(ascii "end", 1)], total := 2 } := by
  decide

/-- The error is on the last line. -/
theorem witness_FirstErrorOfPassOneIsReported :
    (pass1 1 0 [] [ascii "exit", ascii "foo"] : Except CompileError Assembly) =
      .error { line := 2, kind := .unknownMnemonic } := by decide

set_option maxRecDepth 4000 in
/-- W5, and a source without an undefined label. -/
theorem witness_UndefinedLabelIsReported :
    (pass1 1 0 [] (sourceLines (ascii "mov r0, 5\njmp done"))).toOption.map Assembly.total = some 22 ∧
    compile (ascii "mov r0, 5\njmp done") =
      .error { line := 2, kind := .undefinedLabel (ascii "done") } ∧
    (pass1 1 0 [] (sourceLines (ascii "x:\njmp x"))).toOption.map Assembly.total = some 10 ∧
    compile (ascii "x:\njmp x") = .ok [0x06, 0x03, 0, 0, 0, 0, 0, 0, 0, 0] := by decide

set_option maxRecDepth 4000 in
theorem witness_CompiledBytecodeDecodesToTheSource :
    compile (ascii "inc r1\nexit") = .ok [0x03, 0x01, 0x01, 0x09] ∧
    decodeAll 2 [0x03, 0x01, 0x01, 0x09] = some [.inc 1, .exit] := by decide

set_option maxRecDepth 4000 in
/-- A jump to `len(B)`. -/
theorem witness_CompiledJumpsLandOnInstructions :
    compile (ascii "jmp end\nend:") = .ok [0x06, 0x03, 10, 0, 0, 0, 0, 0, 0, 0] ∧
    decodeAll 1 [0x06, 0x03, 10, 0, 0, 0, 0, 0, 0, 0] = some [.jmp 10] ∧
    targetOf (.jmp 10) = some 10 := by decide

end Sys2Proof.Tests
end

section
/-! PROOFS. The state (10_state.md): what an instruction leaves unchanged, what a run of retirements
and a sequence of host operations keep, and the invariant. -/

namespace Sys2Proof

/-! ## The decoder -/

/-- What the decoder found where it answers an instruction after an opcode: all the descriptors and
payloads, an admitted form, and registers in range (30_encoding.md R57 to R63). -/
theorem decodeAfterOpcode_ok {m : Mnemonic} {rest : List Byte} {i : Instr} {w : Nat}
    (h : decodeAfterOpcode m rest = .ok (i, w)) :
    ∃ ks, kindsOf (rest.take m.arity) = some ks ∧ m.admits ks = true ∧
      m.arity + payloadsWidth ks ≤ rest.length ∧
      RawInstr.toInstr { mnemonic := m, operands := readPayloads ks (rest.drop m.arity) } = some i ∧
      w = 1 + m.arity + payloadsWidth ks := by
  unfold decodeAfterOpcode at h
  split at h
  · cases h
  next hdescriptors =>
  split at h
  · cases h
  next ks hks =>
  split at h
  case isFalse => cases h
  next hform =>
  split at h
  · cases h
  next hpayloads =>
  split at h
  · cases h
  next j hj =>
  cases h
  rw [List.length_drop] at hpayloads
  exact ⟨ks, hks, hform, by omega, hj, rfl⟩

/-- Where the decoder answers an instruction, an opcode stands first and the checks after it
pass. -/
theorem decode_ok {bs : List Byte} {i : Instr} {w : Nat} (h : decode bs = .ok (i, w)) :
    ∃ op rest m, bs = op :: rest ∧ Mnemonic.ofOpcode op = some m ∧
      decodeAfterOpcode m rest = .ok (i, w) := by
  cases bs with
  | nil => cases h
  | cons op rest =>
    cases hm : Mnemonic.ofOpcode op with
    | none => simp [decode, hm] at h
    | some m => exact ⟨op, rest, m, rfl, hm, by simpa [decode, hm] using h⟩

/-- Every instruction has at least its opcode byte. -/
theorem decode_ok_width_pos {bs : List Byte} {i : Instr} {w : Nat} (h : decode bs = .ok (i, w)) :
    0 < w := by
  obtain ⟨_, _, _, -, -, hrest⟩ := decode_ok h
  obtain ⟨_, -, -, -, -, rfl⟩ := decodeAfterOpcode_ok hrest
  omega

/-- A decoded instruction lies within the bytes it was decoded from (30_encoding.md R55). -/
theorem decode_ok_width_le {bs : List Byte} {i : Instr} {w : Nat} (h : decode bs = .ok (i, w)) :
    w ≤ bs.length := by
  obtain ⟨op, rest, m, rfl, -, hrest⟩ := decode_ok h
  obtain ⟨ks, -, -, hlen, -, rfl⟩ := decodeAfterOpcode_ok hrest
  rw [List.length_cons]
  omega

end Sys2Proof

namespace Sys2Proof.Machine

open Sys2Proof.Config

/-- A fetched instruction ends at or before `len(B)`, as its fetch window does. -/
theorem fetchDecode_ok_end_le {s : State} {i : Instr} {w : Nat} (h : s.fetchDecode = .ok (i, w)) :
    s.ip.toNat + w ≤ s.bytecode.len := by
  have hle : w ≤ (s.bytecode.window s.ip.toNat maxWidth).length := decode_ok_width_le h
  have hpos : 0 < w := decode_ok_width_pos h
  rw [Memory.length_window] at hle
  omega

/-- IP + width is the exact sum where that is an offset of 64 bits (10_state.md R20). -/
theorem toNat_nextIp {s : State} {w : Nat} (h : s.ip.toNat + w < 2 ^ 64) :
    (s.nextIp w).toNat = s.ip.toNat + w := by
  rw [State.nextIp, BitVec.toNat_add, BitVec.toNat_ofNat, Nat.add_mod_mod, Nat.mod_eq_of_lt h]

/-! ## One instruction -/

/-- Every GPR but the destination is as before (10_state.md R15). -/
theorem exec_next_gpr_other {i : Instr} {s t : State} (h : exec i s = .next t) {r : Reg}
    (hr : gprDest i ≠ some r) : t.readGpr r = s.readGpr r := by
  rcases exec_next_cases h with ⟨rd, v, hd, -, -, -, rfl⟩ | ⟨_, -, rfl⟩ | ⟨_, -, rfl⟩ |
    ⟨_, -, -, rfl⟩ | ⟨-, rfl⟩
  · have hne : r ≠ rd := fun e => hr (e ▸ hd)
    rw [readGpr_advance, readGpr_writeGpr_other s rd v hne]
  all_goals rfl

/-- RF is as before for every instruction but `cmp` (10_state.md R21). -/
theorem exec_next_rf_of_not_cmp {i : Instr} {s t : State} (h : exec i s = .next t)
    (hi : ¬ IsCmp i) : t.rf = s.rf := by
  rcases exec_next_rf h with ⟨hc, -⟩ | ⟨-, e⟩
  · exact absurd hc hi
  · exact e

/-- A `cmp` overwrites RF without reading it. -/
theorem exec_cmp_writeRf (ra rb : Reg) (s : State) (v : Word) :
    exec (.cmp ra rb) (s.writeRf v) = exec (.cmp ra rb) s := rfl

/-- An instruction that neither reads nor writes RF carries any value of it along. -/
theorem exec_writeRf {i : Instr} {s t : State} (v : Word) (hj : ¬ IsConditionalJump i)
    (hc : ¬ IsCmp i) (h : exec i s = .next t) : exec i (s.writeRf v) = .next (t.writeRf v) := by
  cases i with
  | cmp => exact absurd trivial hc
  | jle => exact absurd trivial hj
  | jg => exact absurd trivial hj
  | _ => cases h; rfl

/-- A step that answers a next state retired one instruction, or found the VM halted and did
nothing. -/
theorem step_next_cases {s t : State} (h : step s = .next t) : t = s ∨ ∃ i, Retires s i t := by
  cases hp : s.vmPresent with
  | false => rw [step_noVm hp] at h; cases h
  | true =>
    cases hh : s.halted with
    | true => rw [step_halted hp hh] at h; cases h; exact .inl rfl
    | false =>
      have hr : s.Running := ⟨hp, hh⟩
      rw [step_running hr] at h
      exact .inr ((retireOne_next_iff hr).1 h)

/-! ## Runs of retirements -/

/-- What every retirement keeps, every run of retirements keeps. -/
theorem RetiresAll.preserves {P : State → Prop} (hP : ∀ {s i t}, Retires s i t → P s → P t)
    {s t : State} {is : List Instr} (h : RetiresAll s is t) (hs : P s) : P t := by
  induction is generalizing s with
  | nil => cases h; exact hs
  | cons i is ih =>
    obtain ⟨u, hu, hrest⟩ := h
    exact ih hrest (hP hu hs)

/-- A run without a `cmp` keeps RF (10_state.md R23). -/
theorem RetiresAll.rf_of_no_cmp {s t : State} {is : List Instr} (h : RetiresAll s is t)
    (hn : ∀ i ∈ is, ¬ IsCmp i) : t.rf = s.rf := by
  induction is generalizing s with
  | nil => cases h; rfl
  | cons i is ih =>
    obtain ⟨u, ⟨-, -, hexec⟩, hrest⟩ := h
    rw [List.forall_mem_cons] at hn
    obtain ⟨hi, his⟩ := hn
    exact (ih hrest his).trans (exec_next_rf_of_not_cmp hexec hi)

/-- A run of retirements touches neither the bytecode, VM presence nor the parameters. -/
theorem RetiresAll.machine {s t : State} {is : List Instr} (h : RetiresAll s is t) :
    t.bytecode = s.bytecode ∧ t.vmPresent = s.vmPresent ∧ t.params = s.params := by
  refine h.preserves (P := fun u => u.bytecode = s.bytecode ∧ u.vmPresent = s.vmPresent ∧
    u.params = s.params) ?_ ⟨rfl, rfl, rfl⟩
  rintro u i v ⟨-, -, hexec⟩ ⟨hb, hv, hp⟩
  obtain ⟨eb, ev, ep, -⟩ := exec_next_machine hexec
  exact ⟨eb.trans hb, ev.trans hv, ep.trans hp⟩

/-! ## Host operations -/

/-- `single_step` retires one instruction or none, whatever it answers. -/
theorem singleStep_retiresAll {s t : State} {r : Response} (h : singleStep s = (r, t)) :
    ∃ is, RetiresAll s is t := by
  rcases singleStep_cases s with ⟨-, e⟩ | ⟨-, -, e⟩ | ⟨-, u, i, hi, -, e⟩ | ⟨-, f, -, e⟩ <;>
    rw [e] at h <;> cases h
  case inr.inr.inl => exact ⟨[i], .single hi⟩
  all_goals exact ⟨[], rfl⟩

/-- Where `execute` returns, it did nothing, or it retired an instruction and returned from
there. -/
theorem executeFor_some_cases {n : Nat} {s t : State} {r : Response}
    (h : executeFor n s = some (r, t)) :
    t = s ∨ ∃ k i u, n = k + 1 ∧ Retires s i u ∧ executeFor k u = some (r, t) := by
  rcases singleStep_cases s with ⟨hp, -⟩ | ⟨hp, hh, -⟩ | ⟨hr, u, i, hi, ho, -⟩ | ⟨hr, f, ho, -⟩
  · rw [executeFor_noVm hp] at h; cases h; exact .inl rfl
  · rw [executeFor_halted hp hh] at h; cases h; exact .inl rfl
  · cases n with
    | zero => rw [executeFor_zero hr] at h; cases h
    | succ k => rw [executeFor_next hr ho] at h; exact .inr ⟨k, i, u, rfl, hi, h⟩
  · cases n with
    | zero => rw [executeFor_zero hr] at h; cases h
    | succ k => rw [executeFor_fault hr ho] at h; cases h; exact .inl rfl

/-- Where `execute` returns, it has retired some instructions and done nothing else. -/
theorem executeFor_retiresAll {n : Nat} {s t : State} {r : Response}
    (h : executeFor n s = some (r, t)) : ∃ is, RetiresAll s is t := by
  induction n generalizing s with
  | zero =>
    rcases executeFor_some_cases h with e | ⟨_, _, _, hk, -⟩
    · exact ⟨[], e⟩
    · cases hk
  | succ n ih =>
    rcases executeFor_some_cases h with e | ⟨_, i, u, hk, hi, hrest⟩
    · exact ⟨[], e⟩
    · cases hk
      obtain ⟨is, his⟩ := ih hrest
      exact ⟨i :: is, u, hi, his⟩

/-- Everything a host operation can do to the machine: bind a bytecode within the length limit, or
retire some instructions, possibly none. -/
theorem perform_cases {fuel : Nat} {c : Command} {s t : State} {r : Response}
    (h : perform fuel c s = some (r, t)) :
    (∃ bs, c = .initVm bs ∧ bs.length < bytecodeLimit ∧ t = s.initVm bs) ∨
      ∃ is, RetiresAll s is t := by
  cases c with
  | initVm bs =>
    by_cases hl : bs.length < bytecodeLimit
    · simp only [perform, initVmOp, hl, if_true] at h
      cases h
      exact .inl ⟨bs, rfl, hl, rfl⟩
    · simp only [perform, initVmOp, hl, if_false] at h
      cases h
      exact .inr ⟨[], rfl⟩
  | execute => exact .inr (executeFor_retiresAll h)
  | singleStep => exact .inr (singleStep_retiresAll (Option.some.inj h))
  | compile | readReg | getCycle => cases h; exact .inr ⟨[], rfl⟩

/-- A host operation other than `init_vm` only retires instructions. -/
theorem perform_retiresAll {fuel : Nat} {c : Command} {s t : State} {r : Response}
    (hc : ¬ c.IsInit) (h : perform fuel c s = some (r, t)) : ∃ is, RetiresAll s is t := by
  rcases perform_cases h with ⟨bs, rfl, -, -⟩ | his
  · exact absurd trivial hc
  · exact his

/-- No operation takes a VM away (10_state.md R28). -/
theorem perform_vmPresent {fuel : Nat} {c : Command} {s t : State} {r : Response}
    (h : perform fuel c s = some (r, t)) (hs : s.vmPresent = true) : t.vmPresent = true := by
  rcases perform_cases h with ⟨bs, -, -, rfl⟩ | ⟨is, his⟩
  · exact initVm_vmPresent s bs
  · obtain ⟨-, hv, -⟩ := his.machine
    exact hv.trans hs

/-- No operation changes the machine's parameters. -/
theorem perform_params {fuel : Nat} {c : Command} {s t : State} {r : Response}
    (h : perform fuel c s = some (r, t)) : t.params = s.params := by
  rcases perform_cases h with ⟨bs, -, -, rfl⟩ | ⟨is, his⟩
  · exact initVm_params s bs
  · obtain ⟨-, -, hp⟩ := his.machine
    exact hp

/-- No operation but `init_vm` changes the bytecode or VM presence (20_memory.md R41). -/
theorem perform_machine {fuel : Nat} {c : Command} {s t : State} {r : Response}
    (hc : ¬ c.IsInit) (h : perform fuel c s = some (r, t)) :
    t.bytecode = s.bytecode ∧ t.vmPresent = s.vmPresent := by
  obtain ⟨is, his⟩ := perform_retiresAll hc h
  obtain ⟨hb, hv, -⟩ := his.machine
  exact ⟨hb, hv⟩

/-- What each operation of a sequence keeps, the sequence keeps. -/
theorem performAll_preserves {P : State → Prop} {fuel : Nat} {cs : List Command}
    (hP : ∀ c ∈ cs, ∀ {s r t}, perform fuel c s = some (r, t) → P s → P t)
    {s t : State} {rs : List Response} (h : performAll fuel cs s = some (rs, t)) (hs : P s) :
    P t := by
  induction cs generalizing s rs with
  | nil => cases h; exact hs
  | cons c cs ih =>
    rw [List.forall_mem_cons] at hP
    obtain ⟨hc, hcs⟩ := hP
    cases hp : perform fuel c s with
    | none => simp [performAll, hp] at h
    | some p =>
      simp only [performAll, hp, Option.map_eq_some_iff] at h
      obtain ⟨⟨rs', u⟩, hrest, e⟩ := h
      cases e
      exact ih hcs hrest (hc hp hs)

/-! ## The invariant -/

/-- No instruction changes the codes. -/
theorem exec_next_rfCode {i : Instr} {s t : State} (h : exec i s = .next t) (rel : Relation) :
    t.rfCode rel = s.rfCode rel := by
  obtain ⟨-, -, hp, -⟩ := exec_next_machine h
  rw [State.rfCode, State.rfCode, hp]

/-- RF stays NONE or one of the codes (10_state.md R22): `cmp` records a code, and nothing else
writes it. -/
theorem exec_next_rfLegal {i : Instr} {s t : State} (h : exec i s = .next t) (hs : s.RfLegal) :
    t.RfLegal := by
  rcases exec_next_rf h with ⟨-, rel, hrf⟩ | ⟨-, hrf⟩
  · exact .inr ⟨rel, hrf.trans (exec_next_rfCode h rel).symm⟩
  · rcases hs with hnone | ⟨rel, hrel⟩
    · exact .inl (hrf.trans hnone)
    · exact .inr ⟨rel, (hrf.trans hrel).trans (exec_next_rfCode h rel).symm⟩

/-- A retirement keeps the invariant. -/
theorem Retires.inv {s t : State} {i : Instr} (h : Retires s i t) (hs : s.Inv) : t.Inv := by
  obtain ⟨-, -, hexec⟩ := h
  obtain ⟨hb, -, hp, -⟩ := exec_next_machine hexec
  exact ⟨hb ▸ hs.bytecodeWf, hb ▸ hs.bytecodeShort, hp ▸ hs.codesValid,
    exec_next_rfLegal hexec hs.rfLegal⟩

/-- `init_vm` establishes the invariant on every machine with valid codes (70_reset_and_hazards.md
R143). -/
theorem initVm_inv {s : State} {bs : List Byte} (hc : s.params.rfCodes.Valid)
    (hl : bs.length < bytecodeLimit) : (s.initVm bs).Inv :=
  ⟨Memory.wf_ofBytes bs, hl, hc, .inl rfl⟩

/-- The reset state is what `init_vm` of the empty bytecode leaves. -/
theorem resetWith_eq_initVm (p : Params) : State.resetWith p = (State.powerOn p).initVm [] := rfl

theorem resetWith_inv {p : Params} (hc : p.rfCodes.Valid) : (State.resetWith p).Inv :=
  resetWith_eq_initVm p ▸ initVm_inv hc (Nat.two_pow_pos 64)

/-- The invariant does not speak of VM presence, by which alone power on differs from reset. -/
theorem powerOn_inv {p : Params} (hc : p.rfCodes.Valid) : (State.powerOn p).Inv :=
  have h := resetWith_inv hc
  ⟨h.bytecodeWf, h.bytecodeShort, h.codesValid, h.rfLegal⟩

/-- Every host operation keeps the invariant. -/
theorem perform_inv {fuel : Nat} {c : Command} {s t : State} {r : Response}
    (h : perform fuel c s = some (r, t)) (hs : s.Inv) : t.Inv := by
  rcases perform_cases h with ⟨bs, -, hl, rfl⟩ | ⟨is, his⟩
  · exact initVm_inv hs.codesValid hl
  · exact his.preserves Retires.inv hs

/-! ## The obligations -/

/-- Settles O41: a step does nothing or retires one instruction, which keeps the invariant. -/
theorem stepKeepsInv : Obligations.StepKeepsInv := by
  intro s t hs h
  rcases step_next_cases h with rfl | ⟨i, hi⟩
  · exact hs
  · exact hi.inv hs

/-- Settles O19, clause by clause from what `exec`'s next state can be. -/
theorem execFrame : Obligations.ExecFrame := by
  intro i s t h
  obtain ⟨hb, hv, hp, -⟩ := exec_next_machine h
  refine ⟨fun r => exec_next_gpr_other h, exec_next_rf_of_not_cmp h, fun hne => ?_,
    ⟨by rw [hb], fun a => by rw [hb]⟩, hv, hp⟩
  rcases exec_next_halted h with ⟨he, -⟩ | ⟨-, e⟩
  · exact absurd he hne
  · exact e

/-- Settles O20: `cmp` overwrites RF, and every other instruction but `jle` and `jg` carries it
along. -/
theorem onlyConditionalJumpsReadRf : Obligations.OnlyConditionalJumpsReadRf := by
  intro i s t v hj h
  by_cases hc : IsCmp i
  · cases i with
    | cmp ra rb => exact ⟨t, (exec_cmp_writeRf ra rb s v).trans h, rfl, fun _ => rfl⟩
    | _ => exact hc.elim
  · exact ⟨t.writeRf v, exec_writeRf v hj hc h, rfl, fun e => absurd e hc⟩

/-- Settles O22: the fetch window ends at `len(B)`, which lies below 2^64. -/
theorem ipNeverWraps : Obligations.IpNeverWraps := by
  intro s i w hs h
  have hend : s.ip.toNat + w ≤ s.bytecode.len := fetchDecode_ok_end_le h
  exact ⟨hend, toNat_nextIp (hend.trans_lt hs.bytecodeShort)⟩

/-- Settles O29: the operation is a run of retirements, and one without a `cmp` keeps RF. -/
theorem onlyCmpAndInitChangeRf : Obligations.OnlyCmpAndInitChangeRf := by
  intro fuel c s t r hc h
  obtain ⟨is, his⟩ := perform_retiresAll hc h
  exact ⟨is, his, his.rf_of_no_cmp⟩

/-- Settles O39: each clause is kept by every single operation, so by a sequence of them. -/
theorem bytecodeChangesByInitVmOnly : Obligations.BytecodeChangesByInitVmOnly := by
  intro fuel cs s t rs h
  refine ⟨fun hs => ?present, ?params, fun hcs => ?machine⟩
  case present => exact performAll_preserves (fun _ _ => perform_vmPresent) h hs
  case params =>
    exact performAll_preserves (P := fun u => u.params = s.params)
      (fun _ _ _ _ _ hp hu => (perform_params hp).trans hu) h rfl
  case machine =>
    refine performAll_preserves (P := fun u => u.bytecode = s.bytecode ∧ u.vmPresent = s.vmPresent)
      ?_ h ⟨rfl, rfl⟩
    rintro c hc u r v hp ⟨hb, hv⟩
    obtain ⟨eb, ev⟩ := perform_machine (hcs c hc) hp
    exact ⟨eb.trans hb, ev.trans hv⟩

/-- Settles O42: every operation keeps the invariant, so every sequence does. -/
theorem hostOperationsKeepInv : Obligations.HostOperationsKeepInv := by
  intro fuel cs s t rs hs h
  exact performAll_preserves (fun _ _ => perform_inv) h hs

/-- Settles O40: reset is `init_vm` of the empty bytecode, and the default codes are valid. -/
theorem invAtResetAndInit : Obligations.InvAtResetAndInit :=
  ⟨resetWith_inv (by decide), fun _ hc => ⟨resetWith_inv hc, powerOn_inv hc⟩,
    fun _ _ => initVm_inv⟩

end Sys2Proof.Machine
end

section
/-! The canonical form of a bytecode is unique (20_memory.md R32): what a canonical bytecode reads
fixes which cells it lists, and rising addresses fix their order. -/

namespace Sys2Proof.Machine

namespace Memory

/-! ## Listed cells -/

theorem cellsWf_cons {len lo a : Nat} {b : Byte} {cs : List Host.Cell} :
    cellsWf len lo ((a, b) :: cs) = true ↔
      lo ≤ a ∧ a < len ∧ b ≠ 0#8 ∧ cellsWf len (a + 1) cs = true := by
  simp [cellsWf, and_assoc]

theorem lookup_cons_same (a : Nat) (b : Byte) (cs : List Host.Cell) :
    lookup ((a, b) :: cs) a = some b := if_pos rfl

theorem lookup_cons_other {a x : Nat} (h : x ≠ a) (b : Byte) (cs : List Host.Cell) :
    lookup ((a, b) :: cs) x = lookup cs x := if_neg h

/-- A listed cell lies inside the bytecode and is not zero. -/
theorem lookup_some_inside_ne_zero {len lo x : Nat} {b : Byte} {cs : List Host.Cell}
    (h : cellsWf len lo cs = true) (hx : lookup cs x = some b) : x < len ∧ b ≠ 0#8 := by
  induction cs generalizing lo with
  | nil => cases hx
  | cons c cs ih =>
    obtain ⟨a, d⟩ := c
    obtain ⟨-, ha, hd, hcs⟩ := cellsWf_cons.1 h
    by_cases hxa : x = a
    · subst hxa
      rw [lookup_cons_same] at hx
      cases hx
      exact ⟨ha, hd⟩
    · rw [lookup_cons_other hxa] at hx
      exact ih hcs hx

/-- The listed cells are exactly the nonzero bytes that the bytecode reads. -/
theorem lookup_eq_some_iff_read {m : Memory} (h : m.wf = true) {x : Nat} {b : Byte} :
    lookup m.cells x = some b ↔ m.read x = some b ∧ b ≠ 0#8 := by
  constructor
  · intro hx
    obtain ⟨hlt, hb⟩ := lookup_some_inside_ne_zero h hx
    exact ⟨by rw [read_inside hlt, hx, Option.getD_some], hb⟩
  · rintro ⟨hr, hb⟩
    by_cases hlt : x < m.len
    · rw [read_inside hlt] at hr
      cases hl : lookup m.cells x with
      | none => rw [hl] at hr; cases hr; exact absurd rfl hb
      | some d => rwa [hl] at hr
    · rw [read_past_end (Nat.le_of_not_lt hlt)] at hr
      cases hr

/-! ## Rising addresses -/

/-- No listed address lies below the first. -/
theorem head_le_of_lookup_some {len lo a x : Nat} {b d : Byte} {cs : List Host.Cell}
    (h : cellsWf len lo ((a, b) :: cs) = true) (hx : lookup ((a, b) :: cs) x = some d) :
    a ≤ x := by
  obtain ⟨-, ha, hb, hcs⟩ := cellsWf_cons.1 h
  by_contra hlt
  rw [lookup_below (cellsWf_cons.2 ⟨le_rfl, ha, hb, hcs⟩) (Nat.lt_of_not_le hlt)] at hx
  cases hx

/-- Two lists in canonical form with the same cells are the same list. -/
theorem cells_eq_of_lookup_eq {len len' lo lo' : Nat} {cs cs' : List Host.Cell}
    (h : cellsWf len lo cs = true) (h' : cellsWf len' lo' cs' = true)
    (heq : ∀ x, lookup cs x = lookup cs' x) : cs = cs' := by
  induction cs generalizing lo lo' cs' with
  | nil =>
    cases cs' with
    | nil => rfl
    | cons c' cs' => exact nomatch (heq c'.1).trans (lookup_cons_same c'.1 c'.2 cs')
  | cons c cs ih =>
    obtain ⟨a, b⟩ := c
    have hhead : lookup cs' a = some b := (heq a).symm.trans (lookup_cons_same a b cs)
    cases cs' with
    | nil => cases hhead
    | cons c' cs' =>
      obtain ⟨a', b'⟩ := c'
      have hhead' : lookup ((a, b) :: cs) a' = some b' :=
        (heq a').trans (lookup_cons_same a' b' cs')
      obtain rfl : a = a' :=
        Nat.le_antisymm (head_le_of_lookup_some h hhead') (head_le_of_lookup_some h' hhead)
      rw [lookup_cons_same] at hhead
      cases hhead
      obtain ⟨-, -, -, hcs⟩ := cellsWf_cons.1 h
      obtain ⟨-, -, -, hcs'⟩ := cellsWf_cons.1 h'
      have htail : ∀ x, lookup cs x = lookup cs' x := by
        intro x
        by_cases hx : x = a
        · subst hx
          rw [lookup_below hcs (Nat.lt_succ_self x), lookup_below hcs' (Nat.lt_succ_self x)]
        · have hxs := heq x
          rwa [lookup_cons_other hx, lookup_cons_other hx] at hxs
      rw [ih hcs hcs' htail]

end Memory

/-! ## The obligation -/

/-- Settles O43: the bytes read fix the cells listed, and rising addresses fix the list. -/
theorem canonicalBytecodeIsUnique : Obligations.CanonicalBytecodeIsUnique := by
  intro m m' h h' hlen hread
  have hlookup : ∀ x, Memory.lookup m.cells x = Memory.lookup m'.cells x := fun x =>
    Option.ext fun b => by
      rw [Memory.lookup_eq_some_iff_read h, Memory.lookup_eq_some_iff_read h', hread x]
  have hcells : m.cells = m'.cells := Memory.cells_eq_of_lookup_eq h h' hlookup
  cases m
  cases m'
  cases hlen
  cases hcells
  rfl

end Sys2Proof.Machine
end

section
/-! PROOFS. The encoding (30_encoding.md Parts 1 and 2): what each check of the decoder answers,
that decoding and encoding are inverse, and that the fetch window loses nothing. -/

namespace Sys2Proof

/-! ## The forms -/

/-- A form's operand kinds are admitted for its mnemonic (30_encoding.md R53). -/
@[simp] theorem admits_operands (i : Instr) :
    i.mnemonic.admits (i.operands.map Operand.kind) = true := by
  cases i <;> rfl

@[simp] theorem length_operands (i : Instr) : i.operands.length = i.mnemonic.arity := by
  cases i <;> rfl

theorem inRange_reg {n : Byte} : Operand.inRange (.reg n) = true ↔ n.toNat < 16 :=
  decide_eq_true_iff

/-- Every register payload of a form is in range (30_encoding.md R49). -/
theorem inRange_of_mem_operands {i : Instr} {o : Operand} (h : o ∈ i.operands) :
    o.inRange = true := by
  have hall : i.operands.all Operand.inRange = true := by
    cases i <;>
      simp only [Instr.operands, List.all_cons, List.all_nil, Laws.inRange_payload,
        Bool.and_true] <;> rfl
  exact List.all_eq_true.1 hall o h

/-- No mnemonic has more than two operands (30_encoding.md R55). -/
theorem arity_le_two (m : Mnemonic) : m.arity ≤ 2 := by cases m <;> decide

/-- The table of admitted forms (30_encoding.md R53). -/
def admittedForms : List (Mnemonic × List OperandKind) :=
  [(.mov, [.reg, .reg]), (.mov, [.reg, .imm]), (.add, [.reg, .reg]), (.inc, [.reg]),
    (.xor, [.reg, .reg]), (.cmp, [.reg, .reg]), (.jmp, [.addr]), (.jle, [.addr]), (.jg, [.addr]),
    (.exit, [])]

theorem admits_iff (m : Mnemonic) (ks : List OperandKind) :
    m.admits ks = true ↔ (m, ks) ∈ admittedForms := by
  cases m <;> simp [Mnemonic.admits, admittedForms]

/-- No admitted form is longer than the longest instruction (30_encoding.md R54). -/
theorem width_le_of_admits {m : Mnemonic} {ks : List OperandKind} (h : m.admits ks = true) :
    1 + m.arity + payloadsWidth ks ≤ maxWidth := by
  have hall : ∀ f ∈ admittedForms, 1 + f.1.arity + payloadsWidth f.2 ≤ maxWidth := by decide
  exact hall (m, ks) ((admits_iff m ks).1 h)

/-- An encoding is the opcode, the descriptors, then the payloads (30_encoding.md R44, R45). -/
theorem encode_eq (i : Instr) :
    encode i = i.mnemonic.opcode ::
      ((i.operands.map Operand.kind).map OperandKind.descriptor ++
        i.operands.flatMap Operand.payload) := by
  rw [List.map_map]
  rfl

@[simp] theorem length_encode (i : Instr) : (encode i).length = i.width := length_encode_raw i.raw

/-! ## Reading descriptors and payloads -/

/-- Only 0x00 and 0x0A..0xFF name no mnemonic (30_encoding.md R47). -/
theorem ofOpcode_eq_none {b : Byte} (h : b.toNat = 0 ∨ 0x0A ≤ b.toNat) :
    Mnemonic.ofOpcode b = none := by
  revert b
  decide

/-- Only 0x00 and 0x04..0xFF name no operand kind (30_encoding.md R48). -/
theorem ofDescriptor_eq_none {b : Byte} (h : b.toNat = 0 ∨ 0x04 ≤ b.toNat) :
    OperandKind.ofDescriptor b = none := by
  revert b
  decide

/-- One illegal descriptor spoils the run it stands in. -/
theorem kindsOf_eq_none {ds : List Byte} {d : Byte} (hd : d ∈ ds)
    (h : OperandKind.ofDescriptor d = none) : kindsOf ds = none := by
  cases hks : kindsOf ds with
  | none => rfl
  | some ks =>
    rw [descriptors_of_kindsOf hks, List.mem_map] at hd
    obtain ⟨k, -, rfl⟩ := hd
    rw [ofDescriptor_descriptor] at h
    cases h

/-- A register payload stands after the payloads of the operands before it. -/
theorem readPayloads_reg {ks : List OperandKind} {ps : List Byte} {k : Nat} {n : Byte}
    (hk : ks[k]? = some .reg) (hn : ps[payloadsWidth (ks.take k)]? = some n) :
    Operand.reg n ∈ readPayloads ks ps := by
  induction ks generalizing ps k with
  | nil => cases hk
  | cons j ks ih =>
    cases k with
    | zero =>
      obtain rfl : j = .reg := by simpa using hk
      cases ps with
      | nil => cases hn
      | cons b bs =>
        obtain rfl : b = n := by simpa [payloadsWidth] using hn
        exact List.mem_cons_self
    | succ k =>
      rw [List.take_succ_cons, payloadsWidth_cons] at hn
      exact List.mem_cons_of_mem _
        (ih (k := k) (by simpa using hk) (by rw [List.getElem?_drop]; exact hn))

/-- A register's payload byte lies within the payloads. -/
theorem payloadsWidth_take_reg {ks : List OperandKind} {k : Nat} (hk : ks[k]? = some .reg) :
    payloadsWidth (ks.take k) + 1 ≤ payloadsWidth ks := by
  induction ks generalizing k with
  | nil => cases hk
  | cons j ks ih =>
    cases k with
    | zero =>
      obtain rfl : j = .reg := by simpa using hk
      exact Nat.le_add_right 1 _
    | succ k =>
      have hrest := ih (k := k) (by simpa using hk)
      rw [List.take_succ_cons, payloadsWidth_cons, payloadsWidth_cons]
      omega

/-- Reading payloads looks at the payload bytes alone. -/
theorem readPayloads_take {ks : List OperandKind} {n : Nat} (h : payloadsWidth ks ≤ n)
    (ps : List Byte) : readPayloads ks (ps.take n) = readPayloads ks ps := by
  induction ks generalizing n ps with
  | nil => rfl
  | cons k ks ih =>
    rw [payloadsWidth_cons] at h
    have hone : readPayload k (ps.take n) = readPayload k ps := by
      cases k with
      | reg =>
        have hn : 1 ≤ n := le_trans (Nat.le_add_right 1 _) h
        obtain ⟨n, rfl⟩ := Nat.exists_eq_add_of_le' hn
        cases ps <;> rfl
      | imm | addr =>
        have hn : min 8 n = 8 := min_eq_left (le_trans (Nat.le_add_right 8 _) h)
        simp only [readPayload, le64, List.take_take, hn]
    rw [readPayloads, readPayloads, hone, List.drop_take, ih (by omega)]

/-! ## The checks after the opcode, in their order (30_encoding.md R57 to R63) -/

section Checks

variable {m : Mnemonic} {ks : List OperandKind} {rest ps : List Byte}

theorem decode_opcode (m : Mnemonic) (rest : List Byte) :
    decode (m.opcode :: rest) = decodeAfterOpcode m rest := by
  simp only [decode, ofOpcode_opcode]

theorem decode_badOpcode {op : Byte} (h : op.toNat = 0 ∨ 0x0A ≤ op.toNat) :
    decode (op :: rest) = .error .badOpcode := by
  simp only [decode, ofOpcode_eq_none h]

theorem decodeAfterOpcode_fewDescriptors (h : rest.length < m.arity) :
    decodeAfterOpcode m rest = .error .truncated := if_pos h

theorem decodeAfterOpcode_badDescriptor (h : m.arity ≤ rest.length)
    (hks : kindsOf (rest.take m.arity) = none) :
    decodeAfterOpcode m rest = .error .badDescriptor := by
  simp only [decodeAfterOpcode, Nat.not_lt.2 h, if_false, hks]

/-- What the decoder does once the descriptors are legal. -/
theorem decodeAfterOpcode_descriptors (hl : ks.length = m.arity) :
    decodeAfterOpcode m (ks.map OperandKind.descriptor ++ ps) =
      if m.admits ks then
        if ps.length < payloadsWidth ks then .error .truncated
        else
          (RawInstr.toInstr { mnemonic := m, operands := readPayloads ks ps }).elim
            (.error .badRegister) (fun i => .ok (i, 1 + m.arity + payloadsWidth ks))
      else .error .badForm := by
  have hlen : (ks.map OperandKind.descriptor).length = m.arity := by rw [List.length_map, hl]
  have hfit : ¬ (ks.map OperandKind.descriptor ++ ps).length < m.arity := by
    rw [List.length_append]
    omega
  simp only [decodeAfterOpcode, hfit, if_false, List.take_left' hlen, List.drop_left' hlen,
    kindsOf_descriptors]
  cases RawInstr.toInstr { mnemonic := m, operands := readPayloads ks ps } <;> rfl

theorem decodeAfterOpcode_badForm (hl : ks.length = m.arity) (hf : m.admits ks = false) :
    decodeAfterOpcode m (ks.map OperandKind.descriptor ++ ps) = .error .badForm := by
  simp [decodeAfterOpcode_descriptors hl, hf]

theorem decodeAfterOpcode_fewPayloads (hl : ks.length = m.arity) (hf : m.admits ks = true)
    (hp : ps.length < payloadsWidth ks) :
    decodeAfterOpcode m (ks.map OperandKind.descriptor ++ ps) = .error .truncated := by
  simp [decodeAfterOpcode_descriptors hl, hf, hp]

/-- A register payload of 16 or more is no operand of an instruction. -/
theorem decodeAfterOpcode_badRegister (hl : ks.length = m.arity) (hf : m.admits ks = true)
    (hp : payloadsWidth ks ≤ ps.length) {n : Byte} (hn : 16 ≤ n.toNat)
    (hmem : Operand.reg n ∈ readPayloads ks ps) :
    decodeAfterOpcode m (ks.map OperandKind.descriptor ++ ps) = .error .badRegister := by
  have hnone : RawInstr.toInstr { mnemonic := m, operands := readPayloads ks ps } = none := by
    rw [Option.eq_none_iff_forall_ne_some]
    intro i hi
    have hraw : readPayloads ks ps = i.operands := congrArg RawInstr.operands (raw_of_toInstr hi)
    have hlt : n.toNat < 16 :=
      inRange_reg.1 (inRange_of_mem_operands (hraw ▸ hmem))
    omega
  simp [decodeAfterOpcode_descriptors hl, hf, Nat.not_lt.2 hp, hnone]

end Checks

/-! ## Decode and encode are inverse -/

/-- The encoding of an instruction decodes to it, whatever follows (30_encoding.md R57). -/
theorem decode_encode_append (i : Instr) (rest : List Byte) :
    decode (encode i ++ rest) = .ok (i, i.width) := by
  have hfit : ¬ (i.operands.flatMap Operand.payload ++ rest).length <
      payloadsWidth (i.operands.map Operand.kind) := by
    rw [List.length_append, length_payloads]
    omega
  have hraw : RawInstr.toInstr { mnemonic := i.mnemonic, operands := i.operands } = some i :=
    toInstr_raw i
  rw [encode_eq, List.cons_append, List.append_assoc, decode_opcode,
    decodeAfterOpcode_descriptors (by simp), if_pos (admits_operands i), if_neg hfit,
    readPayloads_payloads, hraw, Instr.width, length_operands]
  rfl

/-- What decodes is the encoding of what it decodes to (30_encoding.md R56). -/
theorem decode_ok_encode {bs : List Byte} {i : Instr} {w : Nat} (h : decode bs = .ok (i, w)) :
    w = i.width ∧ bs.take w = encode i := by
  obtain ⟨op, rest, m, rfl, hop, hrest⟩ := decode_ok h
  obtain ⟨ks, hks, -, hlen, hi, rfl⟩ := decodeAfterOpcode_ok hrest
  obtain rfl : op = m.opcode := opcode_of_ofOpcode hop
  obtain ⟨hkinds, hpayloads⟩ := readPayloads_bytes ks (rest.drop m.arity)
    (by rw [List.length_drop]; omega)
  have hraw := raw_of_toInstr hi
  have hm : m = i.mnemonic := congrArg RawInstr.mnemonic hraw
  have hos : readPayloads ks (rest.drop m.arity) = i.operands := congrArg RawInstr.operands hraw
  rw [hos] at hkinds hpayloads
  constructor
  · rw [Instr.width, length_operands, hkinds, ← hm]
  · rw [encode_eq, hkinds, hpayloads, ← hm, ← descriptors_of_kindsOf hks, ← List.take_add,
      Nat.add_assoc, Nat.add_comm 1, List.take_succ_cons]

/-! ## The fetch window -/

/-- The bytes after an opcode start with an illegal run of descriptors or with the descriptors of
some kinds. -/
theorem kindsOf_take_cases {m : Mnemonic} {rest : List Byte} (h : m.arity ≤ rest.length) :
    kindsOf (rest.take m.arity) = none ∨
      ∃ (ks : List OperandKind) (ps : List Byte), ks.length = m.arity ∧
        rest = ks.map OperandKind.descriptor ++ ps := by
  cases hks : kindsOf (rest.take m.arity) with
  | none => exact .inl rfl
  | some ks =>
    have hds := descriptors_of_kindsOf hks
    refine .inr ⟨ks, rest.drop m.arity, ?_, by rw [← hds, List.take_append_drop]⟩
    rw [← List.length_map (f := OperandKind.descriptor), ← hds, List.length_take, min_eq_left h]

theorem decodeAfterOpcode_take (m : Mnemonic) (rest : List Byte) :
    decodeAfterOpcode m (rest.take 11) = decodeAfterOpcode m rest := by
  have harity : m.arity ≤ 2 := arity_le_two m
  by_cases hfew : rest.length < m.arity
  · rw [List.take_of_length_le (by omega)]
  rcases kindsOf_take_cases (Nat.le_of_not_lt hfew) with hnone | ⟨ks, ps, hl, rfl⟩
  · have htake : (rest.take 11).take m.arity = rest.take m.arity := by
      rw [List.take_take, min_eq_left (by omega)]
    rw [decodeAfterOpcode_badDescriptor (by omega) hnone,
      decodeAfterOpcode_badDescriptor (by rw [List.length_take]; omega) (by rw [htake, hnone])]
  · rw [List.take_append, List.length_map, hl,
      List.take_of_length_le (by rw [List.length_map]; omega), decodeAfterOpcode_descriptors hl,
      decodeAfterOpcode_descriptors hl]
    by_cases hf : m.admits ks = true
    · have hw : 1 + m.arity + payloadsWidth ks ≤ 12 := width_le_of_admits hf
      have hshort : (ps.take (11 - m.arity)).length < payloadsWidth ks ↔
          ps.length < payloadsWidth ks := by
        rw [List.length_take]
        omega
      rw [readPayloads_take (by omega)]
      simp only [hshort]
    · rw [if_neg hf, if_neg hf]

/-- The decoder looks at no byte past the longest instruction (log 7). -/
theorem decode_take (bs : List Byte) : decode (bs.take maxWidth) = decode bs := by
  cases bs with
  | nil => rfl
  | cons op rest =>
    rw [show maxWidth = 11 + 1 from rfl, List.take_succ_cons]
    cases hm : Mnemonic.ofOpcode op with
    | none => simp only [decode, hm]
    | some m =>
      obtain rfl := opcode_of_ofOpcode hm
      rw [decode_opcode, decode_opcode, decodeAfterOpcode_take]

/-! ## Little-endian payloads -/

/-- Byte `k` of a number is bits 8k+7..8k of it (00_scope.md R9). -/
theorem leBytes_getElem? (n v k : Nat) (h : k < n) :
    (leBytes n v)[k]? = some (BitVec.ofNat 8 (v / 256 ^ k)) := by
  induction n generalizing v k with
  | zero => omega
  | succ n ih =>
    cases k with
    | zero => simp [leBytes]
    | succ k =>
      rw [leBytes, List.getElem?_cons_succ, ih _ _ (by omega), Nat.div_div_eq_div_mul,
        ← Nat.pow_succ']

theorem le64Bytes_getElem? (v : Word) {k : Nat} (h : k < 8) :
    (le64Bytes v)[k]? = some (v.extractLsb' (8 * k) 8) := by
  rw [le64Bytes, leBytes_getElem? 8 _ k h]
  congr 1
  apply BitVec.eq_of_toNat_eq
  rw [BitVec.toNat_ofNat, BitVec.extractLsb'_toNat, Nat.shiftRight_eq_div_pow,
    show (256 : Nat) = 2 ^ 8 from rfl, ← Nat.pow_mul]

end Sys2Proof

namespace Sys2Proof.Machine

/-! ## The bytes at IP -/

/-- Bytes that stand in the bytecode from an offset on are the first of the fetch window there. -/
theorem Memory.window_of_holds {m : Memory} {a n : Nat} {bs : List Byte} (h : m.Holds a bs)
    (hn : bs.length ≤ n) :
    m.window a n = bs ++ m.window (a + bs.length) (n - bs.length) := by
  apply List.ext_getElem?
  intro k
  by_cases hk : k < bs.length
  · rw [window_getElem?, List.getElem?_append_left hk, if_pos (by omega), h k hk]
  · rw [window_getElem?, List.getElem?_append_right (by omega), window_getElem?,
      show a + bs.length + (k - bs.length) = a + k by omega]
    by_cases hkn : k < n
    · rw [if_pos hkn, if_pos (by omega)]
    · rw [if_neg hkn, if_neg (by omega)]

/-- Bytes that stand in the bytecode end at or before `len(B)`. -/
theorem Memory.end_le_of_holds {m : Memory} {a : Nat} {bs : List Byte} (h : m.Holds a bs)
    (ha : a ≤ m.len) : a + bs.length ≤ m.len := by
  have hlen := congrArg List.length (window_of_holds h le_rfl)
  rw [List.length_append, length_window, length_window] at hlen
  omega

theorem Memory.lt_len_of_read {m : Memory} {a : Nat} {b : Byte} (h : m.read a = some b) :
    a < m.len := by
  by_contra hle
  rw [read_past_end (Nat.le_of_not_lt hle)] at h
  cases h

theorem Memory.window_cons {m : Memory} {a n : Nat} {b : Byte} (h : m.read a = some b) :
    m.window a (n + 1) = b :: m.window (a + 1) n := by
  simp only [window, h]

/-- A running VM raises the decode error that its bytes at IP give. -/
theorem step_decodeError {s : State} {r : DecodeReason} (hs : s.Running)
    (h : s.fetchDecode = .error r) : step s = .fault (.decodeError r) := by
  rw [step_running hs, State.retireOne, h]
  rfl

/-- With an opcode at IP, decoding goes on with the eleven bytes after it. -/
theorem fetchDecode_opcode {s : State} {m : Mnemonic}
    (h : s.bytecode.read s.ip.toNat = some m.opcode) :
    s.fetchDecode = decodeAfterOpcode m (s.bytecode.window (s.ip.toNat + 1) 11) := by
  rw [State.fetchDecode, Memory.decodeAt, show maxWidth = 11 + 1 from rfl, Memory.window_cons h,
    decode_opcode]

/-- With the descriptors of some kinds after it, what is left of the window is the payloads. -/
theorem fetchDecode_descriptors {s : State} {m : Mnemonic} {ks : List OperandKind}
    (hm : s.bytecode.read s.ip.toNat = some m.opcode) (hl : ks.length = m.arity)
    (hks : s.bytecode.Holds (s.ip.toNat + 1) (ks.map OperandKind.descriptor)) :
    s.fetchDecode = decodeAfterOpcode m (ks.map OperandKind.descriptor ++
      s.bytecode.window (s.ip.toNat + 1 + m.arity) (11 - m.arity)) := by
  have harity : m.arity ≤ 2 := arity_le_two m
  have hlen : (ks.map OperandKind.descriptor).length = m.arity := by rw [List.length_map, hl]
  rw [fetchDecode_opcode hm, Memory.window_of_holds hks (by omega), hlen]

/-- The register payload of a form stands in the window where the bytecode holds it. -/
theorem readPayloads_window_reg {mem : Memory} {m : Mnemonic} {ks : List OperandKind} {a k : Nat}
    {n : Byte} (hf : m.admits ks = true) (hk : ks[k]? = some .reg)
    (hn : mem.read (a + payloadsWidth (ks.take k)) = some n) :
    Operand.reg n ∈ readPayloads ks (mem.window a (11 - m.arity)) := by
  have hw : 1 + m.arity + payloadsWidth ks ≤ 12 := width_le_of_admits hf
  have hpos : payloadsWidth (ks.take k) + 1 ≤ payloadsWidth ks := payloadsWidth_take_reg hk
  exact readPayloads_reg hk (by rw [Memory.window_getElem?, if_pos (by omega), hn])

/-! ## The obligations -/

/-- Settles O5: what decodes is the encoding of what it decodes to, and an encoding decodes to its
own instruction only. -/
theorem decodedBytesAreTheEncoding : Obligations.DecodedBytesAreTheEncoding := by
  intro bs
  cases h : decode bs with
  | error r => exact .inl ⟨r, rfl⟩
  | ok p =>
    obtain ⟨i, w⟩ := p
    obtain ⟨rfl, hbytes⟩ := decode_ok_encode h
    refine .inr ⟨i, rfl, hbytes, decode_ok_width_le h, fun j hj => ?_⟩
    have hdecode : decode bs = .ok (j, j.width) := by
      conv_lhs => rw [← List.take_append_drop j.width bs, hj]
      exact decode_encode_append j _
    rw [h] at hdecode
    cases hdecode
    rfl

/-- Settles O6: the window at IP is the opcode, the descriptors and the payloads, as far as they
fit, and the decoder answers the first check that fails on them. -/
theorem decodeChecksInOrder : Obligations.DecodeChecksInOrder := by
  intro s hs
  refine ⟨fun h => ?pastEnd, fun op hop h => ?badOpcode, fun m hm => ?opcode⟩
  case pastEnd =>
    have hwindow : s.bytecode.window s.ip.toNat maxWidth = [] := by
      rw [← List.length_eq_zero_iff, Memory.length_window]
      omega
    exact step_decodeError hs (by rw [State.fetchDecode, Memory.decodeAt, hwindow]; rfl)
  case badOpcode =>
    refine step_decodeError hs ?_
    rw [State.fetchDecode, Memory.decodeAt, show maxWidth = 11 + 1 from rfl,
      Memory.window_cons hop, decode_badOpcode h]
  case opcode =>
    have harity : m.arity ≤ 2 := arity_le_two m
    have hip : s.ip.toNat < s.bytecode.len := Memory.lt_len_of_read hm
    refine ⟨fun h => ?fewDescriptors, fun k d hfit hk hd hbad => ?badDescriptor,
      fun ks hl hks => ?forms⟩
    case fewDescriptors =>
      exact step_decodeError hs ((fetchDecode_opcode hm).trans
        (decodeAfterOpcode_fewDescriptors (by rw [Memory.length_window]; omega)))
    case badDescriptor =>
      have hmem : d ∈ (s.bytecode.window (s.ip.toNat + 1) 11).take m.arity := by
        refine List.mem_of_getElem? (i := k) ?_
        rw [List.getElem?_take_of_lt hk, Memory.window_getElem?, if_pos (by omega), hd]
      exact step_decodeError hs ((fetchDecode_opcode hm).trans
        (decodeAfterOpcode_badDescriptor (by rw [Memory.length_window]; omega)
          (kindsOf_eq_none hmem (ofDescriptor_eq_none hbad))))
    case forms =>
      have hfetch := fetchDecode_descriptors hm hl hks
      have hend : s.ip.toNat + 1 + m.arity ≤ s.bytecode.len := by
        simpa only [List.length_map, hl] using Memory.end_le_of_holds hks hip
      refine ⟨fun hf => step_decodeError hs (hfetch.trans (decodeAfterOpcode_badForm hl hf)),
        fun hf hshort => ?fewPayloads, fun k n hf hfit hk hn hbad => ?badRegister⟩
      all_goals have hw : 1 + m.arity + payloadsWidth ks ≤ 12 := width_le_of_admits hf
      case fewPayloads =>
        exact step_decodeError hs (hfetch.trans (decodeAfterOpcode_fewPayloads hl hf
          (by rw [Memory.length_window]; omega)))
      case badRegister =>
        exact step_decodeError hs (hfetch.trans (decodeAfterOpcode_badRegister hl hf
          (by rw [Memory.length_window]; omega) hbad (readPayloads_window_reg hf hk hn)))

/-- Settles O7: the window of a bound bytecode is the first twelve bytes of its rest. -/
theorem fetchDecodesTheWholeRest : Obligations.FetchDecodesTheWholeRest := by
  intro bs a
  rw [Memory.decodeAt, Memory.window_ofBytes, decode_take]

/-- Settles O1: the ten rows by mnemonic, and each form's bytes and width by computing it. -/
theorem admittedFormsAreTheTen : Obligations.AdmittedFormsAreTheTen := by
  refine ⟨admits_iff, fun d s => ?registers, fun d v => ?values, rfl, rfl⟩
  case registers => exact ⟨rfl, rfl, rfl, rfl, rfl, rfl, rfl, rfl, rfl, rfl⟩
  case values => exact ⟨rfl, rfl, rfl, rfl, rfl, rfl, rfl, rfl⟩

/-- Settles O2: byte `k` of a payload is the value divided by 256^k, modulo 256. -/
theorem payloadsAreLittleEndian : Obligations.PayloadsAreLittleEndian := fun v =>
  ⟨length_le64Bytes v, fun _ => le64Bytes_getElem? v, le64_le64Bytes_append v⟩

end Sys2Proof.Machine
end

section
/-! PROOFS. Source lines and operands (30_encoding.md R69 to R79): cutting a source into lines and a
line into tokens, the class of an operand token, and the checks on an instruction line. -/

namespace Sys2Proof.Machine

/-! ## Lines -/

/-- Texts joined by a separator that none of them holds are the pieces between the separators. -/
theorem splitOn_intercalate {sep : Byte} {ls : List Text} (hne : ls ≠ [])
    (h : ∀ l ∈ ls, sep ∉ l) : splitOn sep (List.intercalate [sep] ls) = ls := by
  induction ls with
  | nil => exact absurd rfl hne
  | cons l ls ih =>
    have hl : sep ∉ l := h l List.mem_cons_self
    cases ls with
    | nil => rw [List.intercalate_singleton, splitOn_of_not_mem hl]
    | cons l' ls =>
      rw [List.intercalate_cons_cons, List.append_assoc, List.singleton_append,
        splitOn_append _ hl,
        ih (List.cons_ne_nil _ _) (fun x hx => h x (List.mem_cons_of_mem _ hx))]

/-- Pass 1 sees of a line only what it lexes to. -/
theorem pass1_congr {ls ls' : List Text} (h : ls.map lexLine = ls'.map lexLine) (ln off : Nat)
    (sym : SymbolTable) : pass1 ln off sym ls = pass1 ln off sym ls' := by
  induction ls generalizing ls' ln off sym with
  | nil =>
    obtain rfl : ls' = [] := by simpa using h.symm
    rfl
  | cons l ls ih =>
    cases ls' with
    | nil => cases h
    | cons l' ls' =>
      obtain ⟨hl, hls⟩ := List.cons.inj h
      simp only [pass1, hl, ih hls]

/-- Two sources whose lines lex alike compile alike. -/
theorem compile_eq_of_lexLine_eq {α : Type} {xs : List α} {f g : α → Text}
    (hf : ∀ x ∈ xs, (0x0A : Byte) ∉ f x) (hg : ∀ x ∈ xs, (0x0A : Byte) ∉ g x)
    (h : ∀ x ∈ xs, lexLine (f x) = lexLine (g x)) :
    compile (List.intercalate [0x0A] (xs.map f)) =
      compile (List.intercalate [0x0A] (xs.map g)) := by
  rcases eq_or_ne xs [] with rfl | hne
  · rfl
  · have hlines : ∀ k : α → Text, (∀ x ∈ xs, (0x0A : Byte) ∉ k x) →
        sourceLines (List.intercalate [0x0A] (xs.map k)) = xs.map k := fun k hk =>
      splitOn_intercalate (by simpa using hne) (by simpa using hk)
    have hlex : (xs.map f).map lexLine = (xs.map g).map lexLine := by simpa using h
    simp only [compile, hlines f hf, hlines g hg, pass1_congr hlex]

/-! ## White space, carriage returns and comments -/

theorem isSpace_iff {b : Byte} : isSpace b = true ↔ b = 0x20 ∨ b = 0x09 := by
  simp [isSpace]

/-- White space before a text is trimmed away (30_encoding.md R71). -/
theorem trim_append_left {w : Text} (hw : ∀ b ∈ w, isSpace b = true) (t : Text) :
    trim (w ++ t) = trim t := by
  rw [trim, List.dropWhile_append_of_pos hw, trim]

/-- White space after a text is trimmed away. -/
theorem trim_append_right {w : Text} (hw : ∀ b ∈ w, isSpace b = true) (t : Text) :
    trim (t ++ w) = trim t := by
  have hrev : ∀ b ∈ w.reverse, isSpace b = true := by simpa using hw
  rw [trim, trim, List.dropWhile_append]
  split
  · rename_i h
    rw [List.isEmpty_iff.1 h, List.dropWhile_eq_nil_iff.2 hw]
  · rw [List.reverse_append, List.dropWhile_append_of_pos hrev]

/-- A text that neither begins nor ends in white space stays as it is. -/
theorem trim_eq_self {t : Text} (hhead : ∀ b, t.head? = some b → isSpace b = false)
    (hlast : ∀ b, t.getLast? = some b → isSpace b = false) : trim t = t := by
  have hkeep : ∀ l : Text, (∀ b, l.head? = some b → isSpace b = false) →
      l.dropWhile isSpace = l := by
    intro l hl
    cases l with
    | nil => rfl
    | cons b l => rw [List.dropWhile_cons, hl b rfl, if_neg Bool.false_ne_true]
  rw [trim, hkeep t hhead, hkeep _ (by simpa using hlast), List.reverse_reverse]

theorem stripCr_of_getLast? {t : Text} (h : t.getLast? ≠ some 0x0D) : stripCr t = t := if_neg h

@[simp] theorem stripCr_concat (t : Text) : stripCr (t ++ [0x0D]) = t := by
  rw [stripCr, if_pos List.getLast?_concat, List.dropLast_concat]

/-- A comment's text does not matter (30_encoding.md R70). -/
theorem stripComment_append_comment (t c : Text) :
    stripComment (t ++ 0x3B :: c) = stripComment t := by
  induction t with
  | nil => rfl
  | cons b t ih =>
    rw [stripComment, stripComment] at ih ⊢
    rw [List.cons_append, List.takeWhile_cons, List.takeWhile_cons, ih]

theorem stripComment_of_not_mem {t : Text} (h : (0x3B : Byte) ∉ t) : stripComment t = t :=
  List.takeWhile_eq_self_iff.2 fun b hb => by
    rw [bne_iff_ne]
    rintro rfl
    exact h hb

theorem semicolon_not_mem_of_space {w : Text} (hw : ∀ b ∈ w, isSpace b = true) :
    (0x3B : Byte) ∉ w := fun h => absurd (hw _ h) (by decide)

/-- A comment lexes to nothing, whatever it ends in. -/
theorem lexLine_append_comment {t : Text} (h : t.getLast? ≠ some 0x0D) (c : Text) :
    lexLine (t ++ 0x3B :: c) = lexLine t := by
  obtain ⟨c', hc⟩ : ∃ c', stripCr (t ++ 0x3B :: c) = t ++ 0x3B :: c' := by
    by_cases hcr : (t ++ 0x3B :: c).getLast? = some 0x0D
    · obtain ⟨c', rfl⟩ : ∃ c', c = c' ++ [0x0D] := by
        rcases List.eq_nil_or_concat' c with rfl | ⟨c', b, rfl⟩
        · simp at hcr
        · rw [← List.cons_append, ← List.append_assoc, List.getLast?_concat] at hcr
          cases hcr
          exact ⟨c', rfl⟩
      exact ⟨c', by rw [← List.cons_append, ← List.append_assoc, stripCr_concat]⟩
    · exact ⟨c, stripCr_of_getLast? hcr⟩
  rw [lexLine, lexLine, hc, stripComment_append_comment, stripCr_of_getLast? h]

/-- White space after a line's code is trimmed away, with or without a comment. -/
theorem trim_stripComment_append {w : Text} (hw : ∀ b ∈ w, isSpace b = true) (t : Text) :
    trim (stripComment (t ++ w)) = trim (stripComment t) := by
  by_cases ht : (0x3B : Byte) ∈ t
  · obtain ⟨t, c, rfl⟩ := List.append_of_mem ht
    rw [List.append_assoc, List.cons_append, stripComment_append_comment,
      stripComment_append_comment]
  · have htw : (0x3B : Byte) ∉ t ++ w := by
      rw [List.mem_append]
      exact not_or.2 ⟨ht, semicolon_not_mem_of_space hw⟩
    rw [stripComment_of_not_mem htw, stripComment_of_not_mem ht, trim_append_right hw]

/-- White space around a line and a carriage return at its end lex to nothing (30_encoding.md R69,
R71). -/
theorem lexLine_space_cr {v w t : Text} (hv : ∀ b ∈ v, isSpace b = true)
    (hw : ∀ b ∈ w, isSpace b = true) (ht : t.getLast? ≠ some 0x0D) :
    lexLine (v ++ t ++ w ++ [0x0D]) = lexLine t := by
  have hcode : stripComment (v ++ t) = v ++ stripComment t :=
    List.takeWhile_append_of_pos fun b hb => by
      rw [bne_iff_ne]
      rintro rfl
      exact semicolon_not_mem_of_space hv hb
  rw [lexLine, lexLine, stripCr_concat, stripCr_of_getLast? ht, trim_stripComment_append hw, hcode,
    trim_append_left hv]

/-! ## Mnemonics -/

/-- How a mnemonic is spelled (30_encoding.md R75). -/
def mnemonicText : Mnemonic → Text
  | .mov => ascii "mov"
  | .add => ascii "add"
  | .inc => ascii "inc"
  | .xor => ascii "xor"
  | .cmp => ascii "cmp"
  | .jmp => ascii "jmp"
  | .jle => ascii "jle"
  | .jg => ascii "jg"
  | .exit => ascii "exit"

/-- The nine mnemonics, in the order of the opcode table. -/
def allMnemonics : List Mnemonic := [.mov, .add, .inc, .xor, .cmp, .jmp, .jle, .jg, .exit]

theorem mem_allMnemonics (m : Mnemonic) : m ∈ allMnemonics := by cases m <;> decide

@[simp] theorem mnemonicOf_mnemonicText (m : Mnemonic) : mnemonicOf (mnemonicText m) = some m := by
  cases m <;> decide

theorem mnemonicOf_unknown {tok : Text} (h : tok ∉ allMnemonics.map mnemonicText) :
    mnemonicOf tok = none := by
  simp only [allMnemonics, mnemonicText, List.map_cons, List.map_nil, List.mem_cons,
    List.not_mem_nil, or_false, not_or] at h
  simp [mnemonicOf, h]

theorem mnemonicOf_eq_some_iff {tok : Text} {m : Mnemonic} :
    mnemonicOf tok = some m ↔ tok = mnemonicText m := by
  constructor
  · intro h
    by_cases hmem : tok ∈ allMnemonics.map mnemonicText
    · obtain ⟨m', -, rfl⟩ := List.mem_map.1 hmem
      rw [mnemonicOf_mnemonicText] at h
      cases h
      rfl
    · rw [mnemonicOf_unknown hmem] at h
      cases h
  · rintro rfl
    exact mnemonicOf_mnemonicText m

/-! ## Classes of operand tokens (30_encoding.md R77) -/

/-- The digits of a register's name. -/
def regDigits (r : Reg) : Text :=
  if r.val < 10 then [BitVec.ofNat 8 (0x30 + r.val)]
  else [0x31, BitVec.ofNat 8 (0x30 + (r.val - 10))]

theorem isR_iff {c : Byte} : isR c = true ↔ c = 0x72 ∨ c = 0x52 := by
  simp [isR]

/-- A token is a register exactly where it is `r` or `R` and the register's number. -/
theorem registerOf_eq_some_iff {tok : Text} {r : Reg} :
    registerOf tok = some r ↔ ∃ c, (c = 0x72 ∨ c = 0x52) ∧ tok = c :: regDigits r := by
  constructor
  · intro h
    unfold registerOf at h
    split at h
    · rename_i c d
      split at h
      case isFalse => cases h
      rename_i hcd
      obtain ⟨hc, hd⟩ := Bool.and_eq_true_iff.1 hcd
      obtain rfl : d = Reg.payload r + 0x30 := by rw [← payload_of_ofPayload h]; bv_omega
      have hdigits : ∀ r : Reg, isDigit (Reg.payload r + 0x30) = true →
          [Reg.payload r + 0x30] = regDigits r := by decide
      exact ⟨c, isR_iff.1 hc, congrArg _ (hdigits r hd)⟩
    · rename_i c t d
      split at h
      case isFalse => cases h
      rename_i hctd
      simp only [Bool.and_eq_true, beq_iff_eq] at hctd
      obtain ⟨⟨hc, rfl⟩, hd⟩ := hctd
      obtain rfl : d = Reg.payload r - 10 + 0x30 := by rw [← payload_of_ofPayload h]; bv_omega
      have hdigits : ∀ r : Reg, isDigit (Reg.payload r - 10 + 0x30) = true →
          [0x31, Reg.payload r - 10 + 0x30] = regDigits r := by decide
      exact ⟨c, isR_iff.1 hc, congrArg _ (hdigits r hd)⟩
    · cases h
  · rintro ⟨c, rfl | rfl, rfl⟩ <;> revert r <;> decide

/-- The spelling of a register is an identifier. -/
theorem isIdent_of_registerOf {tok : Text} {r : Reg} (h : registerOf tok = some r) :
    isIdent tok = true := by
  obtain ⟨c, rfl | rfl, rfl⟩ := registerOf_eq_some_iff.1 h <;> revert r <;> decide

/-- No register is spelled `ip` or `rf`. -/
theorem isReservedName_of_registerOf {tok : Text} {r : Reg} (h : registerOf tok = some r) :
    isReservedName tok = false := by
  obtain ⟨c, rfl | rfl, rfl⟩ := registerOf_eq_some_iff.1 h <;> revert r <;> decide

theorem registerOf_of_isReservedName {tok : Text} (h : isReservedName tok = true) :
    registerOf tok = none := by
  cases hr : registerOf tok with
  | none => rfl
  | some r => exact nomatch h.symm.trans (isReservedName_of_registerOf hr)

theorem isReservedName_iff {tok : Text} :
    isReservedName tok = true ↔ tok.map toLower = ascii "ip" ∨ tok.map toLower = ascii "rf" := by
  simp [isReservedName]

theorem isIdentStart_toLower (b : Byte) : isIdentStart (toLower b) = isIdentStart b := by
  revert b
  decide

theorem isIdentChar_toLower (b : Byte) : isIdentChar (toLower b) = isIdentChar b := by
  revert b
  decide

/-- Letter case does not matter for being an identifier. -/
theorem isIdent_map_toLower (tok : Text) : isIdent (tok.map toLower) = isIdent tok := by
  cases tok with
  | nil => rfl
  | cons c cs =>
    simp only [isIdent, List.map_cons, isIdentStart_toLower, List.all_map, Function.comp_def,
      isIdentChar_toLower]

/-- `ip` and `rf` are identifiers in any letter case. -/
theorem isIdent_of_isReservedName {tok : Text} (h : isReservedName tok = true) :
    isIdent tok = true := by
  rw [← isIdent_map_toLower]
  rcases isReservedName_iff.1 h with h | h <;> rw [h] <;> decide

theorem isDecimal_cons {c : Byte} {cs : Text} :
    isDecimal (c :: cs) = true ↔ isDigit c = true ∧ ∀ d ∈ cs, isDigit d = true := by
  simp [isDecimal]

theorem literalOf_decimal {ds : Text} (h : isDecimal ds = true) :
    literalOf ds = some (decimalValue ds : Int) := by
  cases ds with
  | nil => cases h
  | cons c cs =>
    have hc : c ≠ 0x2D := by
      rintro rfl
      exact absurd (isDecimal_cons.1 h).1 (by decide)
    rw [literalOf, if_neg hc, if_pos h]

theorem literalOf_minus {ds : Text} (h : isDecimal ds = true) :
    literalOf (0x2D :: ds) = some (-(decimalValue ds : Int)) := by
  rw [literalOf, if_pos rfl, if_pos h]

/-- A literal is decimal digits after at most one minus. -/
theorem literalOf_isSome_iff {tok : Text} :
    (literalOf tok).isSome = true ↔
      isDecimal tok = true ∨ ∃ ds, tok = 0x2D :: ds ∧ isDecimal ds = true := by
  constructor
  · intro h
    cases tok with
    | nil => cases h
    | cons c cs =>
      rw [literalOf] at h
      split at h <;> split at h
      · exact .inr ⟨cs, congrArg (· :: cs) ‹c = 0x2D›, ‹_›⟩
      · cases h
      · exact .inl ‹_›
      · cases h
  · rintro (h | ⟨ds, rfl, h⟩)
    · rw [literalOf_decimal h]
      rfl
    · rw [literalOf_minus h]
      rfl

/-- No identifier is a literal: a letter or `_` is neither a minus nor a digit. -/
theorem literalOf_of_isIdent {tok : Text} (h : isIdent tok = true) : literalOf tok = none := by
  cases tok with
  | nil => rfl
  | cons c cs =>
    have hstart : ∀ c : Byte, isIdentStart c = true → c ≠ 0x2D ∧ isDigit c = false := by decide
    obtain ⟨hminus, hdigit⟩ := hstart c (Bool.and_eq_true_iff.1 h).1
    have hdec : isDecimal (c :: cs) ≠ true := fun hd => by
      rw [(isDecimal_cons.1 hd).1] at hdigit
      cases hdigit
    rw [literalOf, if_neg hminus, if_neg hdec]

theorem isIdent_of_literalOf {tok : Text} {v : Int} (h : literalOf tok = some v) :
    isIdent tok = false := by
  cases hid : isIdent tok with
  | false => rfl
  | true => exact nomatch h.symm.trans (literalOf_of_isIdent hid)

section Classes

variable {tok : Text}

theorem classifyOperand_register {r : Reg} (h : registerOf tok = some r) :
    classifyOperand tok = .ok (.reg r) := by
  simp only [classifyOperand, h]

theorem classifyOperand_reserved (h : isReservedName tok = true) :
    classifyOperand tok = .error .reservedRegister := by
  simp only [classifyOperand, registerOf_of_isReservedName h, h, if_true]

theorem classifyOperand_literal {v : Int} (h : literalOf tok = some v) :
    classifyOperand tok =
      if literalInRange v then .ok (.imm (BitVec.ofInt 64 v)) else .error .immediateOutOfRange := by
  have hid : isIdent tok = false := isIdent_of_literalOf h
  have hr : registerOf tok = none := by
    cases hr : registerOf tok with
    | none => rfl
    | some r => exact nomatch hid.symm.trans (isIdent_of_registerOf hr)
  have hn : isReservedName tok ≠ true := fun hn =>
    nomatch hid.symm.trans (isIdent_of_isReservedName hn)
  simp only [classifyOperand, hr, if_neg hn, h]

theorem classifyOperand_label (hid : isIdent tok = true) (hr : registerOf tok = none)
    (hn : isReservedName tok = false) : classifyOperand tok = .ok (.label tok) := by
  simp [classifyOperand, hr, hn, literalOf_of_isIdent hid, hid]

theorem classifyOperand_malformed (hr : registerOf tok = none) (hn : isReservedName tok = false)
    (hl : literalOf tok = none) (hid : isIdent tok = false) :
    classifyOperand tok = .error .malformedOperand := by
  simp [classifyOperand, hr, hn, hl, hid]

/-- The five classes of a token, with the answer for each. -/
theorem classifyOperand_cases (tok : Text) :
    (∃ r, registerOf tok = some r ∧ classifyOperand tok = .ok (.reg r)) ∨
    (isReservedName tok = true ∧ classifyOperand tok = .error .reservedRegister) ∨
    (∃ v, literalOf tok = some v ∧
      (classifyOperand tok = .ok (.imm (BitVec.ofInt 64 v)) ∨
        classifyOperand tok = .error .immediateOutOfRange)) ∨
    ((isIdent tok = true ∧ registerOf tok = none ∧ isReservedName tok = false) ∧
      classifyOperand tok = .ok (.label tok)) ∨
    ((registerOf tok = none ∧ isReservedName tok = false ∧ literalOf tok = none ∧
      isIdent tok = false) ∧ classifyOperand tok = .error .malformedOperand) := by
  cases hr : registerOf tok with
  | some r => exact .inl ⟨r, rfl, classifyOperand_register hr⟩
  | none =>
    cases hn : isReservedName tok with
    | true => exact .inr (.inl ⟨rfl, classifyOperand_reserved hn⟩)
    | false =>
      cases hl : literalOf tok with
      | some v =>
        refine .inr (.inr (.inl ⟨v, rfl, ?_⟩))
        rw [classifyOperand_literal hl]
        split
        · exact .inl rfl
        · exact .inr rfl
      | none =>
        cases hid : isIdent tok with
        | true => exact .inr (.inr (.inr (.inl ⟨⟨rfl, rfl, rfl⟩, classifyOperand_label hid hr hn⟩)))
        | false =>
          exact .inr (.inr (.inr (.inr
            ⟨⟨rfl, rfl, rfl, rfl⟩, classifyOperand_malformed hr hn hl hid⟩)))

theorem classifyOperand_reg_iff {r : Reg} :
    classifyOperand tok = .ok (.reg r) ↔ ∃ c, (c = 0x72 ∨ c = 0x52) ∧ tok = c :: regDigits r := by
  rw [← registerOf_eq_some_iff]
  refine ⟨fun h => ?_, classifyOperand_register⟩
  rcases classifyOperand_cases tok with ⟨r', hr, e⟩ | ⟨-, e⟩ | ⟨v, -, e | e⟩ | ⟨-, e⟩ | ⟨-, e⟩ <;>
    cases e.symm.trans h
  exact hr

theorem classifyOperand_reserved_iff :
    classifyOperand tok = .error .reservedRegister ↔
      tok.map toLower = ascii "ip" ∨ tok.map toLower = ascii "rf" := by
  rw [← isReservedName_iff]
  refine ⟨fun h => ?_, classifyOperand_reserved⟩
  rcases classifyOperand_cases tok with ⟨r, -, e⟩ | ⟨hn, e⟩ | ⟨v, -, e | e⟩ | ⟨-, e⟩ | ⟨-, e⟩ <;>
    cases e.symm.trans h
  exact hn

theorem classifyOperand_literal_iff :
    ((∃ v, classifyOperand tok = .ok (.imm v)) ∨
        classifyOperand tok = .error .immediateOutOfRange) ↔
      isDecimal tok = true ∨ ∃ ds, tok = 0x2D :: ds ∧ isDecimal ds = true := by
  rw [← literalOf_isSome_iff, Option.isSome_iff_exists]
  constructor
  · intro h
    rcases classifyOperand_cases tok with ⟨r, -, e⟩ | ⟨-, e⟩ | ⟨v, hv, -⟩ | ⟨-, e⟩ | ⟨-, e⟩
    case inr.inr.inl => exact ⟨v, hv⟩
    all_goals rcases h with ⟨v, h⟩ | h <;> cases e.symm.trans h
  · rintro ⟨v, hv⟩
    rw [classifyOperand_literal hv]
    split
    · exact .inl ⟨_, rfl⟩
    · exact .inr rfl

theorem classifyOperand_label_iff {name : Text} :
    classifyOperand tok = .ok (.label name) ↔
      name = tok ∧ isIdent tok = true ∧ registerOf tok = none ∧ isReservedName tok = false := by
  constructor
  · intro h
    rcases classifyOperand_cases tok with ⟨r, -, e⟩ | ⟨-, e⟩ | ⟨v, -, e | e⟩ | ⟨hl, e⟩ | ⟨-, e⟩ <;>
      cases e.symm.trans h
    exact ⟨rfl, hl⟩
  · rintro ⟨rfl, hid, hr, hn⟩
    exact classifyOperand_label hid hr hn

theorem classifyOperand_malformed_iff :
    classifyOperand tok = .error .malformedOperand ↔
      registerOf tok = none ∧ isReservedName tok = false ∧ literalOf tok = none ∧
        isIdent tok = false := by
  refine ⟨fun h => ?_, fun ⟨hr, hn, hl, hid⟩ => classifyOperand_malformed hr hn hl hid⟩
  rcases classifyOperand_cases tok with ⟨r, -, e⟩ | ⟨-, e⟩ | ⟨v, -, e | e⟩ | ⟨-, e⟩ | ⟨hm, e⟩ <;>
    cases e.symm.trans h
  exact hm

end Classes

/-- The first failure of a list of tokens is the list's. -/
theorem classifyOperands_append_error {pre : List Text} {tok : Text} {k : CompileErrorKind}
    (hpre : ∀ p ∈ pre, ∃ o, classifyOperand p = .ok o) (h : classifyOperand tok = .error k)
    (post : List Text) : classifyOperands (pre ++ tok :: post) = .error k := by
  induction pre with
  | nil => simp only [List.nil_append, classifyOperands, h]
  | cons p pre ih =>
    obtain ⟨o, ho⟩ := hpre p List.mem_cons_self
    simp only [List.cons_append, classifyOperands, ho,
      ih fun q hq => hpre q (List.mem_cons_of_mem _ hq)]

/-- A list of tokens fails only where one of them does. -/
theorem classifyOperands_error {toks : List Text} {k : CompileErrorKind}
    (h : classifyOperands toks = .error k) : ∃ t ∈ toks, classifyOperand t = .error k := by
  induction toks with
  | nil => cases h
  | cons t ts ih =>
    cases ht : classifyOperand t with
    | error j =>
      simp only [classifyOperands, ht] at h
      cases h
      exact ⟨t, List.mem_cons_self, ht⟩
    | ok o =>
      cases hts : classifyOperands ts with
      | error j =>
        simp only [classifyOperands, ht, hts] at h
        cases h
        obtain ⟨u, hu, hk⟩ := ih hts
        exact ⟨u, List.mem_cons_of_mem _ hu, hk⟩
      | ok os => simp [classifyOperands, ht, hts] at h

theorem classifyOperands_error_ne_unknown {toks : List Text} {k : CompileErrorKind}
    (h : classifyOperands toks = .error k) : k ≠ .unknownMnemonic := by
  obtain ⟨t, -, ht⟩ := classifyOperands_error h
  rcases classifyOperand_cases t with ⟨r, -, e⟩ | ⟨-, e⟩ | ⟨v, -, e | e⟩ | ⟨-, e⟩ | ⟨-, e⟩ <;>
    cases e.symm.trans ht <;> decide

/-! ## Literals (30_encoding.md R78) -/

/-- The value of a run of digits is that of `Nat.ofDigits`, least significant digit first. -/
theorem decimalValue_eq_ofDigits (ds : Text) :
    decimalValue ds = Nat.ofDigits 10 (ds.reverse.map (fun d => d.toNat - 0x30)) := by
  induction ds using List.reverseRecOn with
  | nil => rfl
  | append_singleton ds d ih =>
    rw [decimalValue, List.foldl_append, ← decimalValue, ih, List.reverse_concat, List.map_cons,
      Nat.ofDigits_cons, Nat.add_comm]
    rfl

theorem isDigit_iff {d : Byte} : isDigit d = true ↔ 0x30 ≤ d.toNat ∧ d.toNat ≤ 0x39 := by
  simp [isDigit]

theorem isDecimal_iff {ds : Text} :
    isDecimal ds = true ↔ ds ≠ [] ∧ ∀ d ∈ ds, 0x30 ≤ d.toNat ∧ d.toNat ≤ 0x39 := by
  simp [isDecimal, isDigit_iff]

theorem literalInRange_iff {v : Int} :
    literalInRange v = true ↔ -(2 ^ 63) ≤ v ∧ v ≤ 2 ^ 64 - 1 := by
  simp [literalInRange]

/-! ## Instruction lines -/

section InstructionLine

variable {mn operands : Text} {m : Mnemonic}

theorem any_isEmpty_iff {toks : List Text} : toks.any List.isEmpty = true ↔ [] ∈ toks := by
  simp [List.any_eq_true]

theorem parseInstruction_unknown (h : mnemonicOf mn = none) :
    parseInstruction mn operands = .error .unknownMnemonic := by
  simp only [parseInstruction, h]

variable (hm : mnemonicOf mn = some m)
include hm

theorem parseInstruction_emptyToken (h : [] ∈ operandTokens operands) :
    parseInstruction mn operands = .error .malformedOperand := by
  simp only [parseInstruction, hm, any_isEmpty_iff.2 h, if_true]

variable (h : [] ∉ operandTokens operands)
include h

theorem parseInstruction_wrongCount (hc : (operandTokens operands).length ≠ m.arity) :
    parseInstruction mn operands = .error .wrongOperandCount := by
  simp only [parseInstruction, hm, if_neg (mt any_isEmpty_iff.1 h), if_pos hc]

variable (hc : (operandTokens operands).length = m.arity)
include hc

theorem parseInstruction_operandError {k : CompileErrorKind}
    (hk : classifyOperands (operandTokens operands) = .error k) :
    parseInstruction mn operands = .error k := by
  simp only [parseInstruction, hm, if_neg (mt any_isEmpty_iff.1 h), if_neg (not_not.2 hc), hk]

theorem parseInstruction_classified {os : List AsmOperand}
    (hos : classifyOperands (operandTokens operands) = .ok os) :
    parseInstruction mn operands =
      if m.admits (os.map AsmOperand.kind) then .ok (m, os) else .error .wrongOperandKind := by
  simp only [parseInstruction, hm, if_neg (mt any_isEmpty_iff.1 h), if_neg (not_not.2 hc), hos]

end InstructionLine

/-- A line with one of the nine mnemonics parses to an admitted form of it, or fails for another
reason than its mnemonic. -/
theorem parseInstruction_cases {mn : Text} {m : Mnemonic} (hm : mnemonicOf mn = some m)
    (operands : Text) :
    (∃ os, m.admits (os.map AsmOperand.kind) = true ∧
      parseInstruction mn operands = .ok (m, os)) ∨
    ∃ k, k ≠ .unknownMnemonic ∧ parseInstruction mn operands = .error k := by
  by_cases hempty : [] ∈ operandTokens operands
  · exact .inr ⟨_, by decide, parseInstruction_emptyToken hm hempty⟩
  by_cases hc : (operandTokens operands).length = m.arity
  · cases hos : classifyOperands (operandTokens operands) with
    | error k =>
      exact .inr ⟨k, classifyOperands_error_ne_unknown hos,
        parseInstruction_operandError hm hempty hc hos⟩
    | ok os =>
      have hp := parseInstruction_classified hm hempty hc hos
      by_cases hf : m.admits (os.map AsmOperand.kind) = true
      · exact .inl ⟨os, hf, hp.trans (if_pos hf)⟩
      · exact .inr ⟨_, by decide, hp.trans (if_neg hf)⟩
  · exact .inr ⟨_, by decide, parseInstruction_wrongCount hm hempty hc⟩

/-- What parses is an admitted form of the mnemonic spelled. -/
theorem parseInstruction_ok {mn operands : Text} {m : Mnemonic} {os : List AsmOperand}
    (h : parseInstruction mn operands = .ok (m, os)) :
    mn = mnemonicText m ∧ m.admits (os.map AsmOperand.kind) = true := by
  cases hm : mnemonicOf mn with
  | none =>
    rw [parseInstruction_unknown hm] at h
    cases h
  | some m' =>
    rcases parseInstruction_cases hm operands with ⟨os', hf, e⟩ | ⟨k, -, e⟩
    · rw [e] at h
      cases h
      exact ⟨mnemonicOf_eq_some_iff.1 hm, hf⟩
    · rw [e] at h
      cases h

theorem parseInstruction_unknown_iff {mn operands : Text} :
    parseInstruction mn operands = .error .unknownMnemonic ↔
      mn ∉ allMnemonics.map mnemonicText := by
  constructor
  · intro h hmem
    obtain ⟨m, -, rfl⟩ := List.mem_map.1 hmem
    rcases parseInstruction_cases (mnemonicOf_mnemonicText m) operands with ⟨os, -, e⟩ | ⟨k, hk, e⟩
    · exact nomatch h.symm.trans e
    · exact hk (Except.error.inj (e.symm.trans h))
  · exact fun h => parseInstruction_unknown (mnemonicOf_unknown h)

/-! ## The obligations -/

/-- Settles O44: digits after at most one minus are a literal, and 64 bits hold its value modulo
2^64. -/
theorem literalsEncodeModulo : Obligations.LiteralsEncodeModulo := by
  intro ds hne hdigits n hn
  have hdec : isDecimal ds = true := isDecimal_iff.2 ⟨hne, hdigits⟩
  obtain rfl : n = decimalValue ds := hn.trans (decimalValue_eq_ofDigits ds).symm
  have hplus := classifyOperand_literal (literalOf_decimal hdec)
  have hminus := classifyOperand_literal (literalOf_minus hdec)
  generalize decimalValue ds = n at hplus hminus ⊢
  refine ⟨fun h => ?_, fun h => ?_, fun h => ?_, fun h => ?_⟩
  · refine ⟨_, hplus.trans (if_pos (literalInRange_iff.2 (by omega))), ?_⟩
    rw [BitVec.toNat_ofInt]
    omega
  · exact hplus.trans (if_neg (mt literalInRange_iff.1 (by omega)))
  · refine ⟨_, hminus.trans (if_pos (literalInRange_iff.2 (by omega))), ?_⟩
    rw [BitVec.toNat_ofInt]
    omega
  · exact hminus.trans (if_neg (mt literalInRange_iff.1 (by omega)))

/-- Settles O45: each class by the case its token falls under. -/
theorem operandClasses : Obligations.OperandClasses :=
  ⟨fun _ _ => classifyOperand_reg_iff, fun _ => classifyOperand_reserved_iff,
    fun _ => classifyOperand_literal_iff, fun _ _ => classifyOperand_label_iff,
    fun _ => classifyOperand_malformed_iff,
    fun _ post _ _ hpre h => classifyOperands_append_error hpre h post⟩

/-- Settles O46: a comment lexes to nothing. -/
theorem commentsAreIgnored : Obligations.CommentsAreIgnored := by
  intro lines h
  refine compile_eq_of_lexLine_eq (fun p hp => ?_) (fun p hp => (h p hp).1) (fun p hp => ?_)
  · obtain ⟨hline, -, hcomment⟩ := h p hp
    simp only [List.mem_append, List.mem_cons, not_or]
    exact ⟨hline, by decide, hcomment⟩
  · obtain ⟨-, hcr, -⟩ := h p hp
    exact lexLine_append_comment hcr p.2

/-- Settles O47: white space around a line and its carriage return lex to nothing. -/
theorem lineEndsAndWhitespaceAreIgnored : Obligations.LineEndsAndWhitespaceAreIgnored := by
  intro lines h
  have hspace : ∀ w : Text, (∀ b ∈ w, b = 0x20 ∨ b = 0x09) → ∀ b ∈ w, isSpace b = true :=
    fun w hw b hb => isSpace_iff.2 (hw b hb)
  refine compile_eq_of_lexLine_eq (fun p hp => ?_) (fun p hp => (h p hp).2.1) (fun p hp => ?_)
  all_goals obtain ⟨hv, hline, hcr, hw⟩ := h p hp
  · have hlf : ∀ w : Text, (∀ b ∈ w, b = 0x20 ∨ b = 0x09) → (0x0A : Byte) ∉ w :=
      fun w hw hmem => absurd (hw _ hmem) (by decide)
    simp only [List.mem_append, not_or]
    exact ⟨⟨⟨hlf _ hv, hline⟩, hlf _ hw⟩, by decide⟩
  · exact lexLine_space_cr (hspace _ hv) (hspace _ hw) hcr

/-- Settles O48: no other check answers `UnknownMnemonic`. -/
theorem mnemonicsAreExactlyTheNine : Obligations.MnemonicsAreExactlyTheNine := by
  intro mn operands
  refine ⟨parseInstruction_unknown_iff, fun m os h => ?_⟩
  obtain ⟨rfl, -⟩ := parseInstruction_ok h
  exact List.mem_map_of_mem (f := fun m => (mnemonicText m, m)) (mem_allMnemonics m)

/-- Settles O49: the commas are where the operands were joined, and trimming leaves an operand as
it is. -/
theorem operandTextSplitsAtCommas : Obligations.OperandTextSplitsAtCommas := by
  intro ops h hne
  have hops : ops ≠ [] := by
    rintro rfl
    exact hne rfl
  have hcomma : ∀ w : Text, (∀ b ∈ w, b = 0x20 ∨ b = 0x09) → (0x2C : Byte) ∉ w :=
    fun w hw hmem => absurd (hw _ hmem) (by decide)
  have hsplit : splitOn 0x2C
      (List.intercalate [0x2C] (ops.map (fun p => p.1 ++ p.2.1 ++ p.2.2))) =
      ops.map (fun p => p.1 ++ p.2.1 ++ p.2.2) := by
    refine splitOn_intercalate (by simpa using hops) (List.forall_mem_map.2 fun p hp => ?_)
    obtain ⟨hv, hw, hop, -, -⟩ := h p hp
    simp only [List.mem_append, not_or]
    exact ⟨⟨hcomma _ hv, hop⟩, hcomma _ hw⟩
  rw [operandTokens, if_neg hne, hsplit, List.map_map]
  refine List.map_congr_left fun p hp => ?_
  obtain ⟨hv, hw, -, hhead, hlast⟩ := h p hp
  have hnot : ∀ b : Byte, b ≠ 0x20 ∧ b ≠ 0x09 → isSpace b = false := by simp [isSpace]
  rw [Function.comp_apply, trim_append_right (fun b hb => isSpace_iff.2 (hw b hb)),
    trim_append_left (fun b hb => isSpace_iff.2 (hv b hb)),
    trim_eq_self (fun b hb => hnot b (hhead b hb)) (fun b hb => hnot b (hlast b hb))]

/-- Settles O50: each row gives a mnemonic's operand count and its admitted forms. -/
theorem instructionLineChecksInOrder : Obligations.InstructionLineChecksInOrder := by
  intro mn operands m n forms hrow
  have hforms : mnemonicOf mn = some m ∧ m.arity = n ∧ ∀ ks, ks ∈ forms ↔ m.admits ks = true := by
    simp only [List.mem_cons, List.not_mem_nil, or_false, Prod.mk.injEq] at hrow
    rcases hrow with h | h | h | h | h | h | h | h | h <;> obtain ⟨rfl, rfl, rfl, rfl⟩ := h <;>
      exact ⟨mnemonicOf_eq_some_iff.2 rfl, rfl, by simp [Mnemonic.admits]⟩
  obtain ⟨hm, rfl, hadmits⟩ := hforms
  refine ⟨parseInstruction_emptyToken hm, fun hempty =>
    ⟨parseInstruction_wrongCount hm hempty, fun hc =>
      ⟨fun k => parseInstruction_operandError hm hempty hc, fun os hos => ?_⟩⟩⟩
  have hp := parseInstruction_classified hm hempty hc hos
  exact ⟨fun hf => hp.trans (if_pos ((hadmits _).1 hf)),
    fun hf => hp.trans (if_neg (mt (hadmits _).2 hf))⟩

end Sys2Proof.Machine
end

section
/-! PROOFS. The two passes (30_encoding.md R72, R73, R80 to R89): what pass 1 does line by line, the
offsets in the symbol table, which error is reported, and that the bytes of pass 2 decode to the
source's instructions. -/

namespace Sys2Proof.Machine

/-! ## Pass 1, line by line -/

/-- Pass 1 passes over some lines, from a line number, an offset and a symbol table on, and finds an
assembly: one rule for the end of the source and one for each class of line (30_encoding.md R80). -/
inductive Assembles : Nat → Nat → SymbolTable → List Text → Assembly → Prop
  | nil (ln off : Nat) (sym : SymbolTable) :
    Assembles ln off sym [] { insts := [], sym := sym, total := off }
  | blank {ln off : Nat} {sym : SymbolTable} {l : Text} {ls : List Text} {asm : Assembly}
    (hl : lexLine l = .blank) (hls : Assembles (ln + 1) off sym ls asm) :
    Assembles ln off sym (l :: ls) asm
  | label {ln off : Nat} {sym : SymbolTable} {l name : Text} {ls : List Text} {asm : Assembly}
    (hl : lexLine l = .label name) (hname : labelError sym name = none)
    (hls : Assembles (ln + 1) off ((name, off) :: sym) ls asm) :
    Assembles ln off sym (l :: ls) asm
  | code {ln off : Nat} {sym : SymbolTable} {l mn operands : Text} {ls : List Text}
    {asm : Assembly} {m : Mnemonic} {os : List AsmOperand}
    (hl : lexLine l = .instruction mn operands) (hp : parseInstruction mn operands = .ok (m, os))
    (hls : Assembles (ln + 1) (off + AsmInstr.width ⟨ln, m, os⟩) sym ls asm) :
    Assembles ln off sym (l :: ls) { asm with insts := ⟨ln, m, os⟩ :: asm.insts }

/-- A line stops pass 1, or pass 1 goes on with the next line from an offset and a symbol table that
the line fixes, with the instruction it spells, if any, in front of what follows. -/
theorem pass1_line_cases (ln off : Nat) (sym : SymbolTable) (l : Text) :
    (∃ k, ∀ ls, pass1 ln off sym (l :: ls) = .error { line := ln, kind := k }) ∨
    ∃ off' sym' is, ∀ ls,
      pass1 ln off sym (l :: ls) =
        (pass1 (ln + 1) off' sym' ls).map (fun asm => { asm with insts := is ++ asm.insts }) ∧
      ∀ asm, Assembles (ln + 1) off' sym' ls asm →
        Assembles ln off sym (l :: ls) { asm with insts := is ++ asm.insts } := by
  have same : ∀ x : Except CompileError Assembly,
      x = x.map (fun asm => { asm with insts := [] ++ asm.insts }) := by
    intro x
    cases x <;> rfl
  cases hl : lexLine l with
  | blank =>
    exact .inr ⟨off, sym, [], fun ls =>
      ⟨by simpa only [pass1, hl] using same _, fun asm => .blank hl⟩⟩
  | label name =>
    cases hname : labelError sym name with
    | some k => exact .inl ⟨k, fun ls => by simp only [pass1, hl, hname]⟩
    | none =>
      exact .inr ⟨off, (name, off) :: sym, [], fun ls =>
        ⟨by simpa only [pass1, hl, hname] using same _, fun asm => .label hl hname⟩⟩
  | instruction mn operands =>
    cases hp : parseInstruction mn operands with
    | error k => exact .inl ⟨k, fun ls => by simp only [pass1, hl, hp]⟩
    | ok p =>
      obtain ⟨m, os⟩ := p
      refine .inr ⟨off + AsmInstr.width ⟨ln, m, os⟩, sym, [⟨ln, m, os⟩], fun ls =>
        ⟨?_, fun asm => .code hl hp⟩⟩
      simp only [pass1, hl, hp]
      cases pass1 (ln + 1) (off + AsmInstr.width ⟨ln, m, os⟩) sym ls <;> rfl

/-- Where pass 1 passes, its lines assemble by the rules above. -/
theorem assembles_of_pass1 {ln off : Nat} {sym : SymbolTable} {ls : List Text} {asm : Assembly}
    (h : pass1 ln off sym ls = .ok asm) : Assembles ln off sym ls asm := by
  induction ls generalizing ln off sym asm with
  | nil =>
    cases h
    exact .nil ln off sym
  | cons l ls ih =>
    rcases pass1_line_cases ln off sym l with ⟨k, hk⟩ | ⟨off', sym', is, hgo⟩
    · rw [hk] at h
      cases h
    · obtain ⟨hpass, hrule⟩ := hgo ls
      rw [hpass] at h
      cases hrest : pass1 (ln + 1) off' sym' ls with
      | error e =>
        rw [hrest] at h
        cases h
      | ok asm' =>
        rw [hrest] at h
        cases h
        exact hrule asm' (ih hrest)

/-- A failing pass 1 stops at a line that the lines before it lead up to, whatever follows
(30_encoding.md R85). -/
theorem pass1_error_split {ln off : Nat} {sym : SymbolTable} {ls : List Text} {e : CompileError}
    (h : pass1 ln off sym ls = .error e) :
    ∃ pre l post, ls = pre ++ l :: post ∧ e.line = ln + pre.length ∧
      (∃ asm, pass1 ln off sym pre = .ok asm) ∧
      ∀ more, pass1 ln off sym (pre ++ l :: more) = .error e := by
  induction ls generalizing ln off sym with
  | nil => cases h
  | cons l ls ih =>
    rcases pass1_line_cases ln off sym l with ⟨k, hk⟩ | ⟨off', sym', is, hgo⟩
    · rw [hk] at h
      cases h
      exact ⟨[], l, ls, rfl, rfl, ⟨_, rfl⟩, hk⟩
    · have hrest : pass1 (ln + 1) off' sym' ls = .error e := by
        rw [(hgo ls).1] at h
        cases hr : pass1 (ln + 1) off' sym' ls with
        | error e' =>
          rw [hr] at h
          exact h
        | ok asm =>
          rw [hr] at h
          cases h
      obtain ⟨pre, l', post, rfl, hline, ⟨asm, hasm⟩, hmore⟩ := ih hrest
      refine ⟨l :: pre, l', post, rfl, by rw [hline, List.length_cons]; omega,
        ⟨_, by rw [(hgo pre).1, hasm]; rfl⟩, fun more => ?_⟩
      rw [List.cons_append, (hgo _).1, hmore]
      rfl

/-! ## The symbol table -/

theorem SymbolTable.find_isSome_iff {sym : SymbolTable} {name : Text} :
    (sym.find name).isSome = true ↔ name ∈ sym.map Prod.fst := by
  simp [SymbolTable.find, List.lookup_isSome_iff]

theorem SymbolTable.find_eq_none_iff {sym : SymbolTable} {name : Text} :
    sym.find name = none ↔ name ∉ sym.map Prod.fst := by
  rw [← find_isSome_iff, Option.not_isSome_iff_eq_none]

theorem isRegisterSpelling_iff {name : Text} :
    isRegisterSpelling name = true ↔
      ∃ c ds, name = c :: ds ∧ (c = 0x72 ∨ c = 0x52) ∧ isDecimal ds = true := by
  rcases name with _ | ⟨c, _ | ⟨d, ds⟩⟩
  · simp [isRegisterSpelling]
  · simp [isRegisterSpelling, isDecimal]
  · simp [isRegisterSpelling, isR_iff, isDecimal]

/-- The names that are kept for registers (30_encoding.md R73). -/
theorem isRegisterName_iff {name : Text} :
    (isReservedName name || isRegisterSpelling name) = true ↔
      name.map toLower = ascii "ip" ∨ name.map toLower = ascii "rf" ∨
        ∃ c ds, name = c :: ds ∧ (c = 0x72 ∨ c = 0x52) ∧ isDecimal ds = true := by
  rw [Bool.or_eq_true, isReservedName_iff, isRegisterSpelling_iff, or_assoc]

section LabelChecks

variable {sym : SymbolTable} {name : Text}

theorem labelError_malformed (hid : isIdent name = false) :
    labelError sym name = some .malformedLabel := by
  simp only [labelError, hid, Bool.not_false, if_true]

theorem labelError_registerName (hid : isIdent name = true)
    (hr : (isReservedName name || isRegisterSpelling name) = true) :
    labelError sym name = some .labelIsRegisterName := by
  simp only [labelError, hid, Bool.not_true, Bool.false_eq_true, if_false, if_pos hr]

/-- The check that is left for an identifier that names no register. -/
theorem labelError_duplicate (hid : isIdent name = true)
    (hr : (isReservedName name || isRegisterSpelling name) ≠ true) :
    labelError sym name = if (sym.find name).isSome then some .duplicateLabel else none := by
  simp only [labelError, hid, Bool.not_true, Bool.false_eq_true, if_false, if_neg hr]

end LabelChecks

/-! ## What pass 1 finds -/

section Found

variable {ln off : Nat} {sym : SymbolTable} {ls : List Text} {asm : Assembly}

/-- The instruction a line spells, with its line number (30_encoding.md R80). -/
def lineInstr (q : Text × Nat) : Option AsmInstr :=
  match lexLine q.1 with
  | .instruction mn operands =>
    match parseInstruction mn operands with
    | .ok p => some { line := q.2, mnemonic := p.1, operands := p.2 }
    | .error _ => none
  | _ => none

theorem lineInstr_blank {l : Text} (h : lexLine l = .blank) (n : Nat) :
    lineInstr (l, n) = none := by
  simp only [lineInstr, h]

theorem lineInstr_label {l name : Text} (h : lexLine l = .label name) (n : Nat) :
    lineInstr (l, n) = none := by
  simp only [lineInstr, h]

theorem lineInstr_code {l mn operands : Text} {p : Mnemonic × List AsmOperand}
    (h : lexLine l = .instruction mn operands) (hp : parseInstruction mn operands = .ok p)
    (n : Nat) : lineInstr (l, n) = some { line := n, mnemonic := p.1, operands := p.2 } := by
  simp only [lineInstr, h, hp]

/-- The instruction list is what the lines spell, in order. -/
theorem Assembles.insts_eq (h : Assembles ln off sym ls asm) :
    asm.insts = (ls.zipIdx ln).filterMap lineInstr := by
  induction h with
  | nil => rfl
  | blank hl _ ih => rw [List.zipIdx_cons, List.filterMap_cons_none (lineInstr_blank hl _), ih]
  | label hl _ _ ih => rw [List.zipIdx_cons, List.filterMap_cons_none (lineInstr_label hl _), ih]
  | code hl hp _ ih => rw [List.zipIdx_cons, List.filterMap_cons_some (lineInstr_code hl hp _), ih]

/-- Every instruction line parses. -/
theorem Assembles.parses (h : Assembles ln off sym ls asm) :
    ∀ l ∈ ls, ∀ mn operands, lexLine l = .instruction mn operands →
      ∃ p, parseInstruction mn operands = .ok p := by
  induction h with
  | nil => exact fun l hl => nomatch hl
  | blank hl _ ih =>
    refine List.forall_mem_cons.2 ⟨fun mn operands e => ?_, ih⟩
    cases hl.symm.trans e
  | label hl _ _ ih =>
    refine List.forall_mem_cons.2 ⟨fun mn operands e => ?_, ih⟩
    cases hl.symm.trans e
  | code hl hp _ ih =>
    refine List.forall_mem_cons.2 ⟨fun mn operands e => ?_, ih⟩
    cases hl.symm.trans e
    exact ⟨_, hp⟩

/-- Every instruction found is an admitted form (30_encoding.md R79). -/
theorem Assembles.admitted (h : Assembles ln off sym ls asm) :
    ∀ a ∈ asm.insts, a.mnemonic.admits (a.operands.map AsmOperand.kind) = true := by
  induction h with
  | nil => exact fun a ha => nomatch ha
  | blank _ _ ih => exact ih
  | label _ _ _ ih => exact ih
  | code _ hp _ ih => exact List.forall_mem_cons.2 ⟨(parseInstruction_ok hp).2, ih⟩

/-- The total is the widths of the instructions found. -/
theorem Assembles.total_eq (h : Assembles ln off sym ls asm) :
    asm.total = off + (asm.insts.map AsmInstr.width).sum := by
  induction h with
  | nil => rfl
  | blank _ _ ih => exact ih
  | label _ _ _ ih => exact ih
  | code _ _ _ ih => rw [ih, List.map_cons, List.sum_cons, Nat.add_assoc]

/-- A declared name keeps its offset. -/
theorem Assembles.find_of_find (h : Assembles ln off sym ls asm) {name : Text} {o : Nat}
    (ho : sym.find name = some o) : asm.sym.find name = some o := by
  induction h with
  | nil => exact ho
  | blank _ _ ih => exact ih ho
  | @label _ _ sym _ other _ _ _ hname _ ih =>
    refine ih ?_
    have hne : name ≠ other := by
      rintro rfl
      exact nomatch ho.symm.trans (find_of_labelError hname)
    rw [SymbolTable.find_cons_other sym _ hne, ho]
  | code _ _ _ ih => exact ih ho

/-- A name in the table was there before, or is bound to where some instruction starts or the last
one ends (30_encoding.md R81). -/
theorem Assembles.find_cases (h : Assembles ln off sym ls asm) {name : Text} {o : Nat}
    (ho : asm.sym.find name = some o) :
    sym.find name = some o ∨ ∃ k, k ≤ asm.insts.length ∧
      o = off + ((asm.insts.take k).map AsmInstr.width).sum := by
  induction h with
  | nil => exact .inl ho
  | blank _ _ ih => exact ih ho
  | @label _ off sym _ other _ _ _ _ _ ih =>
    rcases ih ho with hfind | hk
    · by_cases hne : name = other
      · subst hne
        rw [SymbolTable.find_cons_same] at hfind
        cases hfind
        exact .inr ⟨0, Nat.zero_le _, rfl⟩
      · rw [SymbolTable.find_cons_other sym _ hne] at hfind
        exact .inl hfind
    · exact .inr hk
  | code _ _ _ ih =>
    rcases ih ho with hfind | ⟨k, hk, rfl⟩
    · exact .inl hfind
    · refine .inr ⟨k + 1, Nat.succ_le_succ hk, ?_⟩
      rw [List.take_succ_cons, List.map_cons, List.sum_cons, Nat.add_assoc]

/-- No name is declared twice (30_encoding.md R73). -/
theorem Assembles.names_nodup (h : Assembles ln off sym ls asm)
    (hsym : (sym.map Prod.fst).Nodup) : (asm.sym.map Prod.fst).Nodup := by
  induction h with
  | nil => exact hsym
  | blank _ _ ih => exact ih hsym
  | label _ hname _ ih =>
    exact ih (List.nodup_cons.2
      ⟨SymbolTable.find_eq_none_iff.1 (find_of_labelError hname), hsym⟩)
  | code _ _ _ ih => exact ih hsym

/-- The table holds the names of the label lines, beside those it held before. -/
theorem Assembles.mem_names_iff (h : Assembles ln off sym ls asm) (name : Text) :
    name ∈ asm.sym.map Prod.fst ↔
      name ∈ sym.map Prod.fst ∨ ∃ l ∈ ls, lexLine l = .label name := by
  induction h with
  | nil => simp
  | blank hl _ ih => simp [ih, hl]
  | label hl _ _ ih => simp [ih, hl, eq_comm, or_assoc, or_left_comm]
  | code hl _ _ ih => simp [ih, hl]

end Found

/-! ## Resolving labels -/

theorem exists_mem_of_forall₂ {α β : Type} {R : α → β → Prop} {l : List α} {u : List β} {b : β}
    (h : List.Forall₂ R l u) (hb : b ∈ u) : ∃ a ∈ l, R a b := by
  induction h with
  | nil => cases hb
  | cons hr _ ih =>
    rcases List.mem_cons.1 hb with rfl | hb
    · exact ⟨_, List.mem_cons_self, hr⟩
    · obtain ⟨a, ha, hab⟩ := ih hb
      exact ⟨a, List.mem_cons_of_mem _ ha, hab⟩

section Resolve

variable {sym : SymbolTable}

theorem forall₂_resolveOperands {os : List AsmOperand} {ps : List Operand}
    (h : resolveOperands sym os = .ok ps) :
    List.Forall₂ (fun o p => o.resolve sym = .ok p) os ps := by
  induction os generalizing ps with
  | nil =>
    cases h
    exact .nil
  | cons o os ih =>
    simp only [resolveOperands] at h
    split at h
    · cases h
    · split at h
      · cases h
      · cases h
        exact .cons ‹_› (ih ‹_›)

theorem resolveOperands_error {os : List AsmOperand} {k : CompileErrorKind}
    (h : resolveOperands sym os = .error k) : ∃ o ∈ os, o.resolve sym = .error k := by
  induction os with
  | nil => cases h
  | cons o os ih =>
    simp only [resolveOperands] at h
    split at h
    · cases h
      exact ⟨o, List.mem_cons_self, ‹_›⟩
    · split at h
      · cases h
        obtain ⟨o', ho', hk⟩ := ih ‹_›
        exact ⟨o', List.mem_cons_of_mem _ ho', hk⟩
      · cases h

/-- A label that resolves is in the table. -/
theorem AsmOperand.resolve_label_ok {name : Text} {p : Operand}
    (h : (AsmOperand.label name).resolve sym = .ok p) :
    ∃ off, sym.find name = some off ∧ p = .addr (BitVec.ofNat 64 off) := by
  simp only [AsmOperand.resolve] at h
  split at h
  · cases h
    exact ⟨_, ‹_›, rfl⟩
  · cases h

/-- An address comes from a label. -/
theorem AsmOperand.resolve_eq_addr {o : AsmOperand} {t : Word} (h : o.resolve sym = .ok (.addr t)) :
    ∃ name off, sym.find name = some off ∧ t = BitVec.ofNat 64 off := by
  cases o with
  | reg r => cases h
  | imm v => cases h
  | label name =>
    obtain ⟨off, hoff, e⟩ := AsmOperand.resolve_label_ok h
    cases e
    exact ⟨name, off, hoff, rfl⟩

theorem AsmOperand.inRange_resolve {o : AsmOperand} {p : Operand} (h : o.resolve sym = .ok p) :
    p.inRange = true := by
  cases o with
  | reg r =>
    cases h
    exact Laws.inRange_payload r
  | imm v =>
    cases h
    rfl
  | label name =>
    obtain ⟨off, -, rfl⟩ := AsmOperand.resolve_label_ok h
    rfl

/-- An instruction resolves only where its labels are declared. -/
theorem AsmInstr.labels_of_resolve_ok {a : AsmInstr} {raw : RawInstr} (h : a.resolve sym = .ok raw)
    {name : Text} (hn : AsmOperand.label name ∈ a.operands) : (sym.find name).isSome = true := by
  obtain ⟨-, hps, -⟩ := AsmInstr.resolve_ok h
  obtain ⟨p, -, hp⟩ := exists_mem_of_forall₂ (forall₂_resolveOperands hps).flip hn
  obtain ⟨off, hoff, -⟩ := AsmOperand.resolve_label_ok hp
  rw [hoff]
  rfl

/-- An instruction that does not resolve has a label that is not declared. -/
theorem AsmInstr.resolve_error {a : AsmInstr} {k : CompileErrorKind}
    (h : a.resolve sym = .error k) :
    ∃ name, AsmOperand.label name ∈ a.operands ∧ sym.find name = none ∧
      k = .undefinedLabel name := by
  have hops : resolveOperands sym a.operands = .error k := by
    simp only [AsmInstr.resolve] at h
    split at h
    · cases h
      assumption
    · cases h
  obtain ⟨o, ho, hk⟩ := resolveOperands_error hops
  obtain ⟨name, rfl, hnone, rfl⟩ := AsmOperand.resolve_error hk
  exact ⟨name, ho, hnone, rfl⟩

/-! ## Pass 2 -/

theorem pass2_ok_resolves {as : List AsmInstr} {bs : List Byte} (h : pass2 sym as = .ok bs) :
    ∀ a ∈ as, ∃ raw, a.resolve sym = .ok raw := by
  induction as generalizing bs with
  | nil => exact fun a ha => nomatch ha
  | cons a as ih =>
    obtain ⟨raw, rest, hraw, hrest, -⟩ := pass2_cons_ok h
    exact List.forall_mem_cons.2 ⟨⟨raw, hraw⟩, ih hrest⟩

/-- The bytes take the widths that pass 1 counted. -/
theorem length_pass2 {as : List AsmInstr} {bs : List Byte} (h : pass2 sym as = .ok bs) :
    bs.length = (as.map AsmInstr.width).sum := by
  induction as generalizing bs with
  | nil =>
    cases h
    rfl
  | cons a as ih =>
    obtain ⟨raw, rest, hraw, hrest, rfl⟩ := pass2_cons_ok h
    obtain ⟨-, -, hlen⟩ := AsmInstr.resolve_ok hraw
    rw [List.length_append, hlen, ih hrest, List.map_cons, List.sum_cons]

/-- A failing pass 2 reports the first instruction that does not resolve (30_encoding.md R85). -/
theorem pass2_error_split {as : List AsmInstr} {e : CompileError} (h : pass2 sym as = .error e) :
    ∃ before a after, as = before ++ a :: after ∧ e.line = a.line ∧
      a.resolve sym = .error e.kind ∧ ∀ b ∈ before, ∃ raw, b.resolve sym = .ok raw := by
  induction as with
  | nil => cases h
  | cons a as ih =>
    simp only [pass2] at h
    split at h
    · cases h
      exact ⟨[], a, as, rfl, rfl, ‹_›, fun b hb => nomatch hb⟩
    · split at h
      · cases h
        obtain ⟨before, a', after, rfl, hline, hk, hbefore⟩ := ih ‹_›
        exact ⟨a :: before, a', after, rfl, hline, hk,
          List.forall_mem_cons.2 ⟨⟨_, ‹_›⟩, hbefore⟩⟩
      · cases h

theorem compile_eq_pass2 {src : Text} {asm : Assembly}
    (h : pass1 1 0 [] (sourceLines src) = .ok asm) : compile src = pass2 asm.sym asm.insts := by
  simp only [compile, h]

end Resolve

/-! ## From admitted forms to instructions -/

theorem exists_reg_of_kind {o : Operand} (hk : o.kind = .reg) (hr : o.inRange = true) :
    ∃ r : Reg, o = .reg (Reg.payload r) := by
  cases o with
  | reg n =>
    have hn : Reg.ofPayload n ≠ none := by
      rw [Ne, ofPayload_eq_none, Nat.not_le]
      exact inRange_reg.1 hr
    obtain ⟨r, hnr⟩ := Option.ne_none_iff_exists'.1 hn
    exact ⟨r, congrArg Operand.reg (payload_of_ofPayload hnr)⟩
  | imm v => cases hk
  | addr t => cases hk

section Operands

variable {os : List Operand} {ks : List OperandKind}

/-- Operands of which the first is a register. -/
theorem operands_reg_cons (hk : os.map Operand.kind = .reg :: ks)
    (hr : os.all Operand.inRange = true) :
    ∃ (x : Reg) (ps : List Operand), os = .reg (Reg.payload x) :: ps ∧ ps.map Operand.kind = ks ∧
      ps.all Operand.inRange = true := by
  obtain ⟨o, ps, rfl, ho, hps⟩ := List.map_eq_cons_iff.1 hk
  obtain ⟨hro, hrps⟩ := Bool.and_eq_true_iff.1 (List.all_cons ▸ hr)
  obtain ⟨x, rfl⟩ := exists_reg_of_kind ho hro
  exact ⟨x, ps, rfl, hps, hrps⟩

theorem operands_two_regs (hk : os.map Operand.kind = [.reg, .reg])
    (hr : os.all Operand.inRange = true) :
    ∃ x y : Reg, os = [.reg (Reg.payload x), .reg (Reg.payload y)] := by
  obtain ⟨x, ps, rfl, hps, hrps⟩ := operands_reg_cons hk hr
  obtain ⟨y, qs, rfl, hqs, -⟩ := operands_reg_cons hps hrps
  obtain rfl := List.map_eq_nil_iff.1 hqs
  exact ⟨x, y, rfl⟩

theorem operands_one_imm (hk : os.map Operand.kind = [.imm]) : ∃ v, os = [.imm v] := by
  obtain ⟨o, rfl, ho⟩ := List.map_eq_singleton_iff.1 hk
  cases o with
  | imm v => exact ⟨v, rfl⟩
  | reg n | addr t => cases ho

theorem operands_one_addr (hk : os.map Operand.kind = [.addr]) : ∃ t, os = [.addr t] := by
  obtain ⟨o, rfl, ho⟩ := List.map_eq_singleton_iff.1 hk
  cases o with
  | addr t => exact ⟨t, rfl⟩
  | reg n | imm v => cases ho

end Operands

/-- A raw shape of an admitted form with registers in range is an instruction (30_encoding.md
R53). -/
theorem exists_instr_of_form {r : RawInstr} (hf : r.rightForm = true)
    (hr : r.rightRange = true) : ∃ i : Instr, i.raw = r := by
  obtain ⟨m, os⟩ := r
  have hforms := (admits_iff m (os.map Operand.kind)).1 hf
  simp only [admittedForms, List.mem_cons, List.not_mem_nil, or_false, Prod.mk.injEq] at hforms
  rcases hforms with ⟨rfl, hk⟩ | ⟨rfl, hk⟩ | ⟨rfl, hk⟩ | ⟨rfl, hk⟩ | ⟨rfl, hk⟩ | ⟨rfl, hk⟩ |
    ⟨rfl, hk⟩ | ⟨rfl, hk⟩ | ⟨rfl, hk⟩ | ⟨rfl, hk⟩
  · obtain ⟨x, y, rfl⟩ := operands_two_regs hk hr
    exact ⟨.movReg x y, rfl⟩
  · obtain ⟨x, ps, rfl, hps, -⟩ := operands_reg_cons hk hr
    obtain ⟨v, rfl⟩ := operands_one_imm hps
    exact ⟨.movImm x v, rfl⟩
  · obtain ⟨x, y, rfl⟩ := operands_two_regs hk hr
    exact ⟨.add x y, rfl⟩
  · obtain ⟨x, ps, rfl, hps, -⟩ := operands_reg_cons hk hr
    obtain rfl := List.map_eq_nil_iff.1 hps
    exact ⟨.inc x, rfl⟩
  · obtain ⟨x, y, rfl⟩ := operands_two_regs hk hr
    exact ⟨.xor x y, rfl⟩
  · obtain ⟨x, y, rfl⟩ := operands_two_regs hk hr
    exact ⟨.cmp x y, rfl⟩
  · obtain ⟨t, rfl⟩ := operands_one_addr hk
    exact ⟨.jmp t, rfl⟩
  · obtain ⟨t, rfl⟩ := operands_one_addr hk
    exact ⟨.jle t, rfl⟩
  · obtain ⟨t, rfl⟩ := operands_one_addr hk
    exact ⟨.jg t, rfl⟩
  · obtain rfl := List.map_eq_nil_iff.1 hk
    exact ⟨.exit, rfl⟩

/-- An admitted instruction that resolves is an instruction of the machine. -/
theorem AsmInstr.exists_instr {sym : SymbolTable} {a : AsmInstr} {raw : RawInstr}
    (ha : a.mnemonic.admits (a.operands.map AsmOperand.kind) = true)
    (h : a.resolve sym = .ok raw) : ∃ i : Instr, i.raw = raw := by
  obtain ⟨hm, hps, -⟩ := AsmInstr.resolve_ok h
  refine exists_instr_of_form ?form (List.all_eq_true.2 fun p hp => ?range)
  case form => rw [RawInstr.rightForm, hm, kinds_resolveOperands hps, ha]
  case range =>
    obtain ⟨o, -, ho⟩ := exists_mem_of_forall₂ (forall₂_resolveOperands hps) hp
    exact AsmOperand.inRange_resolve ho

/-- An instruction has the width that pass 1 counted for its line. -/
theorem AsmInstr.width_eq {sym : SymbolTable} {a : AsmInstr} {i : Instr}
    (h : a.resolve sym = .ok i.raw) : a.width = i.width := by
  obtain ⟨-, -, hlen⟩ := AsmInstr.resolve_ok h
  exact hlen.symm.trans (length_encode i)

/-- The instructions of the machine that a list of source instructions stands for. -/
abbrev ResolvesTo (sym : SymbolTable) (as : List AsmInstr) (is : List Instr) : Prop :=
  List.Forall₂ (fun a i => a.resolve sym = .ok (Instr.raw i)) as is

theorem ResolvesTo.widths_eq {sym : SymbolTable} {as : List AsmInstr} {is : List Instr}
    (h : ResolvesTo sym as is) : as.map AsmInstr.width = is.map Instr.width := by
  induction h with
  | nil => rfl
  | cons ha _ ih => rw [List.map_cons, List.map_cons, AsmInstr.width_eq ha, ih]

/-- Pass 2 emits the encodings of the instructions that the source's instructions resolve to. -/
theorem pass2_ok_encodes {sym : SymbolTable} {as : List AsmInstr} {bs : List Byte}
    (ha : ∀ a ∈ as, a.mnemonic.admits (a.operands.map AsmOperand.kind) = true)
    (h : pass2 sym as = .ok bs) : ∃ is, ResolvesTo sym as is ∧ bs = is.flatMap encode := by
  induction as generalizing bs with
  | nil =>
    cases h
    exact ⟨[], .nil, rfl⟩
  | cons a as ih =>
    obtain ⟨raw, rest, hraw, hrest, rfl⟩ := pass2_cons_ok h
    obtain ⟨hhead, htail⟩ := List.forall_mem_cons.1 ha
    obtain ⟨i, rfl⟩ := AsmInstr.exists_instr hhead hraw
    obtain ⟨is, his, rfl⟩ := ih htail hrest
    exact ⟨i :: is, .cons hraw his, rfl⟩

/-! ## Decoding a run of instructions (30_encoding.md R89) -/

theorem decodeAll_nil (n : Nat) : decodeAll n [] = some [] := by cases n <;> rfl

theorem decodeAll_succ {n w : Nat} {bs : List Byte} {i : Instr} (h : decode bs = .ok (i, w)) :
    decodeAll (n + 1) bs = (decodeAll n (bs.drop w)).map (i :: ·) := by
  cases bs with
  | nil => cases h
  | cons b bs => simp only [decodeAll, h]

/-- Encodings one after the other decode to their instructions. -/
theorem decodeAll_flatMap_encode (is : List Instr) :
    decodeAll is.length (is.flatMap encode) = some is := by
  induction is with
  | nil => rfl
  | cons i is ih =>
    rw [List.flatMap_cons, List.length_cons, decodeAll_succ (decode_encode_append i _),
      List.drop_left' (length_encode i), ih]
    rfl

/-- What a run of bytes decodes to does not depend on the bound. -/
theorem decodeAll_unique {n n' : Nat} {bs : List Byte} {is js : List Instr}
    (hi : decodeAll n bs = some is) (hj : decodeAll n' bs = some js) : is = js := by
  induction n generalizing n' bs is js with
  | zero =>
    cases bs with
    | nil =>
      rw [decodeAll_nil] at hi hj
      exact Option.some.inj (hi.symm.trans hj)
    | cons b bs => cases hi
  | succ n ih =>
    cases bs with
    | nil =>
      rw [decodeAll_nil] at hi hj
      exact Option.some.inj (hi.symm.trans hj)
    | cons b bs =>
      cases n' with
      | zero => cases hj
      | succ n' =>
        cases hd : decode (b :: bs) with
        | error r => simp only [decodeAll, hd, reduceCtorEq] at hi
        | ok p =>
          obtain ⟨i, w⟩ := p
          rw [decodeAll_succ hd, Option.map_eq_some_iff] at hi hj
          obtain ⟨is, his, rfl⟩ := hi
          obtain ⟨js, hjs, rfl⟩ := hj
          rw [ih his hjs]

theorem length_flatMap_encode (is : List Instr) : (is.flatMap encode).length = widthSum is := by
  simp only [List.length_flatMap, length_encode, widthSum]

/-- A jump's target is its only operand. -/
theorem operands_of_targetOf {i : Instr} {t : Word} (h : targetOf i = some t) :
    i.operands = [.addr t] := by
  cases i with
  | jmp u | jle u | jg u =>
    cases h
    rfl
  | _ => cases h

/-- What `compile` answers is the encodings of the instructions that its lines resolve to. -/
theorem compile_ok_encodes {src : Text} {bs : List Byte} (h : compile src = .ok bs) :
    ∃ asm is, pass1 1 0 [] (sourceLines src) = .ok asm ∧ ResolvesTo asm.sym asm.insts is ∧
      bs = is.flatMap encode ∧ bs.length = asm.total := by
  obtain ⟨asm, h1, h2⟩ := compile_ok h
  have hasm := assembles_of_pass1 h1
  obtain ⟨is, his, hbs⟩ := pass2_ok_encodes hasm.admitted h2
  exact ⟨asm, is, h1, his, hbs, by rw [length_pass2 h2, hasm.total_eq, Nat.zero_add]⟩

/-! ## The obligations -/

/-- Settles O56: the bytes are encodings one after the other, and those decode. -/
theorem compiledBytecodeDecodesToTheSource : Obligations.CompiledBytecodeDecodesToTheSource := by
  intro src bs h
  obtain ⟨asm, is, h1, his, rfl, hlen⟩ := compile_ok_encodes h
  exact ⟨asm, is, h1, decodeAll_flatMap_encode is, rfl, length_flatMap_encode is, hlen, his⟩

/-- Settles O51: pass 1's instruction list is what the lines spell. -/
theorem everyInstructionLineEmitsOne : Obligations.EveryInstructionLineEmitsOne := by
  intro lines asm h
  have hasm := assembles_of_pass1 h
  exact ⟨hasm.parses, hasm.insts_eq⟩

/-- Settles O52: the checks on a name exclude each other, and a name that passes them is new. -/
theorem labelNamesAreLegalAndDistinct : Obligations.LabelNamesAreLegalAndDistinct := by
  refine ⟨fun sym name => ⟨labelError_malformed, fun hid => ?checks⟩, fun lines asm h => ?table⟩
  case checks =>
    rw [← isRegisterName_iff, ← SymbolTable.find_isSome_iff]
    refine ⟨labelError_registerName hid, fun hr => ?_⟩
    rw [labelError_duplicate hid hr]
    exact ⟨fun h => if_pos h, fun h => if_neg h⟩
  case table =>
    have hasm := assembles_of_pass1 h
    refine ⟨hasm.names_nodup List.nodup_nil, fun name => (hasm.mem_names_iff name).trans ?_⟩
    rw [List.map_nil, or_iff_right List.not_mem_nil]

/-- Settles O53: the offset at a label's line is the width of what was found before it, and the
table keeps it. -/
theorem labelsBindToTheNextInstruction : Obligations.LabelsBindToTheNextInstruction := by
  intro pre post l name asm hl h
  obtain ⟨b, c, hpre, hpost, rfl⟩ := (pass1_append pre (l :: post) 1 0 [] asm).1 h
  have htotal : b.total = (b.insts.map AsmInstr.width).sum := by
    rw [(assembles_of_pass1 hpre).total_eq, Nat.zero_add]
  have hfind : c.sym.find name = some b.total := by
    cases assembles_of_pass1 hpost with
    | label hl' _ hrest =>
      cases hl.symm.trans hl'
      exact hrest.find_of_find (SymbolTable.find_cons_same _ _ _)
    | blank hl' _ => cases hl.symm.trans hl'
    | code hl' _ _ => cases hl.symm.trans hl'
  have hsum : c.total = ((b.insts ++ c.insts).map AsmInstr.width).sum := by
    rw [(assembles_of_pass1 hpost).total_eq, htotal, List.map_append, List.sum_append]
  refine ⟨b.insts, c.insts, rfl, ⟨b, hpre, rfl⟩, htotal ▸ hfind, hsum, fun hnone => ?_,
    fun bs hbs => (length_pass2 hbs).trans hsum.symm⟩
  rw [hsum, hnone, List.append_nil, ← htotal]
  exact hfind

/-- Settles O54: the lines split at the first that stops pass 1. -/
theorem firstErrorOfPassOneIsReported : Obligations.FirstErrorOfPassOneIsReported := by
  intro lines e h
  obtain ⟨pre, l, post, rfl, hline, hpre, hmore⟩ := pass1_error_split h
  have hbefore : (pre ++ l :: post).take (e.line - 1) = pre := List.take_left' (by omega)
  have hupto : (pre ++ l :: post).take e.line = pre ++ [l] := by
    rw [List.append_cons]
    exact List.take_left' (by rw [List.length_append, List.length_singleton]; omega)
  refine ⟨by omega, by rw [List.length_append, List.length_cons]; omega,
    by rw [hbefore]; exact hpre, fun more => ?_⟩
  rw [hupto, List.append_assoc]
  exact hmore more

/-- Settles O55: pass 2 fails at the first instruction that does not resolve, and one resolves
exactly where its labels are declared. -/
theorem undefinedLabelIsReported : Obligations.UndefinedLabelIsReported := by
  intro src asm h1
  rw [compile_eq_pass2 h1]
  constructor
  · constructor
    · rintro ⟨bs, hbs⟩ a ha name hn
      obtain ⟨raw, hraw⟩ := pass2_ok_resolves hbs a ha
      exact AsmInstr.labels_of_resolve_ok hraw hn
    · intro hdeclared
      cases h2 : pass2 asm.sym asm.insts with
      | ok bs => exact ⟨bs, rfl⟩
      | error e =>
        obtain ⟨before, a, after, has, -, hk, -⟩ := pass2_error_split h2
        obtain ⟨name, hn, hnone, -⟩ := AsmInstr.resolve_error hk
        have hsome := hdeclared a (by rw [has]; simp) name hn
        rw [hnone] at hsome
        cases hsome
  · intro e h2
    obtain ⟨before, a, after, has, hline, hk, hbefore⟩ := pass2_error_split h2
    obtain ⟨name, hn, hnone, hkind⟩ := AsmInstr.resolve_error hk
    refine ⟨before, a, after, name, has, hline, hkind, hn, hnone, fun b hb n hbn => ?_⟩
    obtain ⟨raw, hraw⟩ := hbefore b hb
    exact AsmInstr.labels_of_resolve_ok hraw hbn

/-- Settles O57: a jump's target is a label's offset, which is where an instruction starts or the
last one ends. -/
theorem compiledJumpsLandOnInstructions : Obligations.CompiledJumpsLandOnInstructions := by
  intro src bs js h hshort hdecode i hi t ht
  obtain ⟨asm, is, h1, his, rfl, -⟩ := compile_ok_encodes h
  obtain rfl : is = js := decodeAll_unique (decodeAll_flatMap_encode is) hdecode
  obtain ⟨a, -, ha⟩ := exists_mem_of_forall₂ his hi
  obtain ⟨-, hps, -⟩ := AsmInstr.resolve_ok ha
  have hmem : Operand.addr t ∈ i.raw.operands := by
    rw [Instr.raw, operands_of_targetOf ht]
    exact List.mem_singleton_self _
  obtain ⟨o, -, ho⟩ := exists_mem_of_forall₂ (forall₂_resolveOperands hps) hmem
  obtain ⟨name, off, hoff, rfl⟩ := AsmOperand.resolve_eq_addr ho
  obtain ⟨k, hk, rfl⟩ := ((assembles_of_pass1 h1).find_cases hoff).resolve_left nofun
  have hwidth : ((asm.insts.take k).map AsmInstr.width).sum = widthSum (is.take k) := by
    rw [List.map_take, his.widths_eq, ← List.map_take, widthSum]
  have hle : widthSum (is.take k) ≤ widthSum is :=
    ((List.take_sublist k is).map Instr.width).sum_le_sum fun _ _ => Nat.zero_le _
  refine ⟨k, his.length_eq ▸ hk, ?_⟩
  rw [length_flatMap_encode] at hshort
  rw [Nat.zero_add, hwidth, BitVec.toNat_ofNat, Nat.mod_eq_of_lt (hle.trans_lt hshort)]

end Sys2Proof.Machine
end

section
/-! PROOFS. The execution cycle (40_execution_cycle.md): what a step runs and where it leaves IP and
the cycle counter, and how the drivers `execute` and `single_step` answer along a run. -/

namespace Sys2Proof.Machine

/-! ## Fetch and step -/

theorem width_le_maxWidth (i : Instr) : i.width ≤ maxWidth := by
  rw [Instr.width, length_operands]
  exact width_le_of_admits (admits_operands i)

/-- An instruction whose bytes stand at IP is the one the fetch decodes (30_encoding.md R57). -/
theorem fetchDecode_of_holds {s : State} {i : Instr}
    (h : s.bytecode.Holds s.ip.toNat (encode i)) : s.fetchDecode = .ok (i, i.width) := by
  have hfit : (encode i).length ≤ maxWidth := by
    rw [length_encode]
    exact width_le_maxWidth i
  rw [State.fetchDecode, Memory.decodeAt, Memory.window_of_holds h hfit, decode_encode_append]

/-- A running VM executes the instruction that it decodes at IP (40_execution_cycle.md R90). -/
theorem step_decoded {s : State} {i : Instr} {w : Nat} (hs : s.Running)
    (h : s.fetchDecode = .ok (i, w)) : step s = exec i s := by
  rw [step_running hs, State.retireOne, h]

theorem Retires.running {s t : State} {i : Instr} (h : Retires s i t) : s.Running := h.1

theorem Retires.exec_eq {s t : State} {i : Instr} : Retires s i t → exec i s = .next t
  | ⟨_, _, hexec⟩ => hexec

/-- A retirement is what `Step()` answers. -/
theorem Retires.retireOne_eq {s t : State} {i : Instr} (h : Retires s i t) :
    s.retireOne = .next t :=
  (retireOne_next_iff h.running).2 ⟨i, h⟩

/-! ## IP and the cycle counter -/

/-- Where a conditional jump leaves IP: at its target where RF is set and the condition holds, past
its own bytes where not (40_execution_cycle.md R93). -/
theorem conditionalJump_next_ip {i : Instr} {c : Bool} {p : Prop} [Decidable p] (hc : c = true ↔ p)
    {a : Word} {s t : State} (h : conditionalJump i c a s = .next t) :
    t.ip = if s.rf ≠ 0 ∧ p then a else s.ip + BitVec.ofNat 64 i.width := by
  rcases conditionalJump_cases i c a s with
    ⟨_, _, e⟩ | ⟨hrf, _, e⟩ | ⟨hrf, rfl, e⟩ | ⟨_, rfl, e⟩ <;> rw [e] at h <;> cases h
  · exact (if_neg fun hand => hand.1 hrf).symm
  · exact (if_pos ⟨hrf, hc.1 rfl⟩).symm
  · exact (if_neg fun hand => Bool.false_ne_true (hc.2 hand.2)).symm

/-- An instruction that is no jump falls through, `exit` included (40_execution_cycle.md R93). -/
theorem exec_next_ip_of_not_jump {i : Instr} {s t : State} (h : exec i s = .next t)
    (hi : targetOf i = none) : t.ip = s.ip + BitVec.ofNat 64 i.width := by
  rcases exec_next_cases h with ⟨_, _, -, -, -, -, rfl⟩ | ⟨_, -, rfl⟩ | ⟨_, ht, -⟩ | ⟨_, ht, -, -⟩ |
    ⟨rfl, rfl⟩
  · rfl
  · rfl
  · cases hi.symm.trans ht
  · cases hi.symm.trans ht
  · rfl

theorem Retires.cycle_eq {s t : State} {i : Instr} (h : Retires s i t) : t.cycle = s.cycle + 1 := by
  obtain ⟨-, -, -, hcycle⟩ := exec_next_machine h.exec_eq
  exact hcycle

/-- A run counts one cycle for each retirement, modulo 2^64 (40_execution_cycle.md R94). -/
theorem RetiresAll.cycle_eq {s t : State} {is : List Instr} (h : RetiresAll s is t) :
    t.cycle = s.cycle + BitVec.ofNat 64 is.length := by
  induction is generalizing s with
  | nil => cases h; exact (BitVec.add_zero _).symm
  | cons i is ih =>
    obtain ⟨u, hi, hrest⟩ := h
    rw [ih hrest, hi.cycle_eq, List.length_cons, Nat.add_comm, BitVec.ofNat_add, ← BitVec.add_assoc]
    rfl

/-- A run that sets the halted flag ends with the `exit` that sets it (45_exit.md R121). -/
theorem RetiresAll.ends_with_exit {s t : State} {is : List Instr} (h : RetiresAll s is t)
    (hs : s.halted = false) (ht : t.halted = true) :
    ∃ js u, is = js ++ [.exit] ∧ RetiresAll s js u ∧ Retires u .exit t := by
  rcases List.eq_nil_or_concat is with rfl | ⟨js, i, rfl⟩
  · cases h
    cases hs.symm.trans ht
  · rw [List.concat_eq_append] at h ⊢
    obtain ⟨u, hjs, hi⟩ := h.snoc
    obtain ⟨-, hu⟩ := hi.running
    rcases exec_next_halted hi.exec_eq with ⟨rfl, -⟩ | ⟨-, e⟩
    · exact ⟨js, u, rfl, hjs, hi⟩
    · cases ht.symm.trans (e.trans hu)

/-! ## The drivers -/

theorem singleStep_halted {s : State} (hp : s.vmPresent = true) (hh : s.halted = true) :
    singleStep s = (.halted, s) := by
  simp [singleStep, hp, hh]

/-- The loop goes on where `single_step` answers Continued. -/
theorem singleStepUntil_continued {s t : State} (h : singleStep s = (.continued, t)) (n : Nat) :
    singleStepUntil (n + 1) s = singleStepUntil n t := by
  rw [singleStepUntil, h]

/-- The loop ends where `single_step` answers anything else. -/
theorem singleStepUntil_stop {s t : State} {r : Response} (h : singleStep s = (r, t))
    (hr : r ≠ .continued) (n : Nat) : singleStepUntil (n + 1) s = some (r, t) := by
  rw [singleStepUntil, h]
  split
  next e => cases e; exact absurd rfl hr
  next e => rw [e]

/-- The answer with which the other driver stops: `()` of `execute` is Halted of the loop, and
an error or a refusal is the same for both (40_execution_cycle.md R101). -/
def otherDriverAnswer : Response → Response
  | .done => .halted
  | .halted => .done
  | r => r

/-- Where the loop of `single_step` stops, `execute` returns within the same number. -/
theorem executeFor_of_singleStepUntil {n : Nat} {s t : State} {r : Response}
    (h : singleStepUntil n s = some (r, t)) : executeFor n s = some (otherDriverAnswer r, t) := by
  induction n generalizing s with
  | zero => cases h
  | succ n ih =>
    rcases singleStep_cases s with ⟨hp, e⟩ | ⟨hp, hh, e⟩ | ⟨hs, u, _, -, ho, e⟩ | ⟨hs, f, ho, e⟩
    · rw [singleStepUntil_stop e nofun] at h
      cases h
      exact executeFor_noVm hp _
    · rw [singleStepUntil_stop e nofun] at h
      cases h
      exact executeFor_halted hp hh _
    · rw [singleStepUntil_continued e] at h
      exact (executeFor_next hs ho n).trans (ih h)
    · rw [singleStepUntil_stop e nofun] at h
      cases h
      exact executeFor_fault hs ho n

/-- Where `execute` returns, the loop of `single_step` stops with one call more, the one that finds
the VM halted. -/
theorem singleStepUntil_of_executeFor {n : Nat} {s t : State} {r : Response}
    (h : executeFor n s = some (r, t)) :
    singleStepUntil (n + 1) s = some (otherDriverAnswer r, t) := by
  induction n generalizing s with
  | zero =>
    rcases singleStep_cases s with ⟨hp, e⟩ | ⟨hp, hh, e⟩ | ⟨hs, -⟩ | ⟨hs, -⟩
    · rw [executeFor_noVm hp] at h
      cases h
      exact singleStepUntil_stop e nofun _
    · rw [executeFor_halted hp hh] at h
      cases h
      exact singleStepUntil_stop e nofun _
    all_goals
      rw [executeFor_zero hs] at h
      cases h
  | succ n ih =>
    rcases singleStep_cases s with ⟨hp, e⟩ | ⟨hp, hh, e⟩ | ⟨hs, u, _, -, ho, e⟩ | ⟨hs, f, ho, e⟩
    · rw [executeFor_noVm hp] at h
      cases h
      exact singleStepUntil_stop e nofun _
    · rw [executeFor_halted hp hh] at h
      cases h
      exact singleStepUntil_stop e nofun _
    · rw [executeFor_next hs ho] at h
      exact (singleStepUntil_continued e _).trans (ih h)
    · rw [executeFor_fault hs ho] at h
      cases h
      exact singleStepUntil_stop e nofun _

/-! ## Endless runs -/

/-- The machine can retire `n` instructions without being halted after them. -/
def RetiresUnhalted (n : Nat) (s : State) : Prop :=
  ∃ is t, is.length = n ∧ RetiresAll s is t ∧ t.halted = false

theorem retiresUnhalted_zero {s : State} : RetiresUnhalted 0 s ↔ s.halted = false := by
  constructor
  · rintro ⟨is, t, hlen, his, ht⟩
    cases List.length_eq_zero_iff.1 hlen
    cases his
    exact ht
  · exact fun hs => ⟨[], s, rfl, rfl, hs⟩

theorem retiresUnhalted_succ {n : Nat} {s : State} :
    RetiresUnhalted (n + 1) s ↔ ∃ i u, Retires s i u ∧ RetiresUnhalted n u := by
  constructor
  · rintro ⟨is, t, hlen, his, ht⟩
    cases is with
    | nil => cases hlen
    | cons i is =>
      obtain ⟨u, hi, hrest⟩ := his
      exact ⟨i, u, hi, is, t, Nat.succ.inj hlen, hrest, ht⟩
  · rintro ⟨i, u, hi, is, t, hlen, hrest, ht⟩
    exact ⟨i :: is, t, congrArg Nat.succ hlen, ⟨u, hi, hrest⟩, ht⟩

/-- `Step()` leaves at most one state to go on from. -/
theorem retiresUnhalted_next {n : Nat} {s u : State} {i : Instr} (h : Retires s i u) :
    RetiresUnhalted (n + 1) s ↔ RetiresUnhalted n u := by
  rw [retiresUnhalted_succ]
  constructor
  · rintro ⟨j, v, hj, hrest⟩
    cases h.retireOne_eq.symm.trans hj.retireOne_eq
    exact hrest
  · exact fun hrest => ⟨i, u, h, hrest⟩

/-- `execute` has not returned within `n` retirements exactly where there is a VM that retires `n`
instructions without being halted after them. -/
theorem executeFor_eq_none_iff {n : Nat} {s : State} :
    executeFor n s = none ↔ s.vmPresent = true ∧ RetiresUnhalted n s := by
  induction n generalizing s with
  | zero =>
    rw [retiresUnhalted_zero]
    constructor
    · intro h
      rcases singleStep_cases s with ⟨hp, -⟩ | ⟨hp, hh, -⟩ | ⟨hs, -⟩ | ⟨hs, -⟩
      · rw [executeFor_noVm hp] at h; cases h
      · rw [executeFor_halted hp hh] at h; cases h
      all_goals exact hs
    · exact executeFor_zero
  | succ n ih =>
    rcases singleStep_cases s with ⟨hp, -⟩ | ⟨hp, hh, -⟩ | ⟨hs, u, i, hi, ho, -⟩ | ⟨hs, f, ho, -⟩
    · simp [executeFor_noVm hp, hp]
    · rw [executeFor_halted hp hh, retiresUnhalted_succ]
      refine ⟨nofun, ?_⟩
      rintro ⟨-, i, u, hi, -⟩
      obtain ⟨-, hrun⟩ := hi.running
      cases hh.symm.trans hrun
    · obtain ⟨-, hp, -⟩ := exec_next_machine hi.exec_eq
      rw [executeFor_next hs ho, ih, retiresUnhalted_next hi, hp]
    · rw [executeFor_fault hs ho, retiresUnhalted_succ]
      refine ⟨nofun, ?_⟩
      rintro ⟨-, i, u, hi, -⟩
      cases ho.symm.trans hi.retireOne_eq

/-! ## States that no operation leaves -/

/-- Where both drivers leave the state, every operation but `init_vm` does. -/
theorem perform_fixed {fuel : Nat} {s : State} (hexec : ∃ r, executeFor fuel s = some (r, s))
    (hstep : ∃ r, singleStep s = (r, s)) {c : Command} (hc : ¬ c.IsInit) :
    ∃ r, perform fuel c s = some (r, s) := by
  cases c with
  | initVm => exact absurd trivial hc
  | execute => exact hexec
  | singleStep => exact hstep.imp fun _ => congrArg some
  | compile | readReg | getCycle => exact ⟨_, rfl⟩

/-- A state that each operation of a sequence leaves is left by the sequence. -/
theorem performAll_fixed {fuel : Nat} {s : State} {cs : List Command}
    (h : ∀ c ∈ cs, ∃ r, perform fuel c s = some (r, s)) :
    ∃ rs, performAll fuel cs s = some (rs, s) := by
  induction cs with
  | nil => exact ⟨[], rfl⟩
  | cons c cs ih =>
    rw [List.forall_mem_cons] at h
    obtain ⟨⟨r, hr⟩, hcs⟩ := h
    obtain ⟨rs, hrs⟩ := ih hcs
    exact ⟨r :: rs, by simp [performAll, hr, hrs]⟩

/-! ## The register file by index -/

/-- `read_reg` answers the entry of the register file that its index names (40_execution_cycle.md
R99). -/
theorem readReg_index {s : State} (hs : s.vmPresent = true) (k : Fin 18) :
    readReg k.val s = .value (s.readFile k) := by
  have hrange : (0 : Int) ≤ k.val ∧ (k.val : Int) < 18 := by omega
  rw [readReg, if_pos hs, if_pos hrange, Int.toNat_natCast, Fin.ofNat_val_eq_self]

theorem readReg_outside {s : State} (hs : s.vmPresent = true) {i : Int} (hi : i < 0 ∨ 17 < i) :
    readReg i s = .indexError := by
  have hrange : ¬ (0 ≤ i ∧ i < 18) := by omega
  rw [readReg, if_pos hs, if_neg hrange]

/-- The GPRs are the entries from index 2 on (10_state.md R15). -/
theorem readFile_natAdd (s : State) (r : Reg) : s.readFile (Fin.natAdd 2 r) = s.readGpr r := by
  have h0 : 2 + r.val ≠ 0 := by omega
  have h1 : 2 + r.val ≠ 1 := by omega
  rw [State.readFile, Fin.val_natAdd, if_neg h0, if_neg h1, Nat.add_sub_cancel_left,
    Fin.ofNat_val_eq_self]

/-! ## The obligations -/

/-- Settles O21: the two addresses of a conditional jump, and the fall-through of every other. -/
theorem ipUpdate : Obligations.IpUpdate := by
  rintro s t i ⟨-, -, h⟩
  refine ⟨?jmp, ?jle, ?jg, ?other⟩
  case jmp =>
    rintro a rfl
    cases h
    rfl
  case jle =>
    rintro a rfl
    exact conditionalJump_next_ip rfSaysLessOrEqual_iff h
  case jg =>
    rintro a rfl
    exact conditionalJump_next_ip rfSaysGreater_iff h
  case other =>
    intro hi
    rw [length_encode]
    exact exec_next_ip_of_not_jump h hi

/-- Settles O23: the guards of the step let a running VM through. -/
theorem stepRunsTheDecodedInstruction : Obligations.StepRunsTheDecodedInstruction :=
  fun _ _ _ => step_decoded

/-- Settles O24: the fetch window starts with the encoding, which decodes whatever follows. -/
theorem bytesAtIpRun : Obligations.BytesAtIpRun := by
  intro s i hs h
  have hfetch := fetchDecode_of_holds h
  exact ⟨step_decoded hs hfetch, hfetch⟩

/-- Settles O25: the step of a running VM is a retirement, and each counts one cycle. -/
theorem everyRetirementCountsOneCycle : Obligations.EveryRetirementCountsOneCycle := by
  intro s t hs h
  rw [step_running hs] at h
  obtain ⟨i, hi⟩ := (retireOne_next_iff hs).1 h
  exact ⟨⟨i, hi⟩, hi.cycle_eq ▸ BitVec.toNat_add _ _⟩

/-- Settles O28: a run counts its retirements from 0 on, and only an `exit` at its end halts it. -/
theorem cycleCountAtHalt : Obligations.CycleCountAtHalt := by
  intro s t bs is h ht
  obtain ⟨js, u, hjs, hrun, hexit⟩ := h.ends_with_exit (initVm_halted s bs) ht
  refine ⟨?_, js, u, hjs, hrun, hexit, exec_next_ip_of_not_jump hexit.exec_eq rfl⟩
  have hcycle : t.cycle = 0#64 + BitVec.ofNat 64 is.length := h.cycle_eq
  rw [hcycle, BitVec.zero_add, BitVec.toNat_ofNat]

/-- Settles O32: each driver answers a halted VM at once, so no operation leaves its state. -/
theorem exitFinality : Obligations.ExitFinality := by
  intro s hp hh
  have hstep : singleStep s = (.halted, s) := singleStep_halted hp hh
  have hexec : ∀ n, executeFor n s = some (.done, s) := executeFor_halted hp hh
  exact ⟨hstep, hexec, step_halted hp hh, fun fuel cs hcs =>
    performAll_fixed fun c hc => perform_fixed ⟨_, hexec fuel⟩ ⟨_, hstep⟩ (hcs c hc)⟩

/-- Settles O33: each driver's answer is the other's, within one call more or fewer. -/
theorem executeEqualsSingleSteps : Obligations.ExecuteEqualsSingleSteps := by
  intro s t
  refine ⟨⟨?_, ?_⟩, fun f => ⟨?_, ?_⟩⟩
  · exact fun ⟨n, h⟩ => ⟨n + 1, singleStepUntil_of_executeFor h⟩
  · exact fun ⟨n, h⟩ => ⟨n, executeFor_of_singleStepUntil h⟩
  · exact fun ⟨n, h⟩ => ⟨n + 1, singleStepUntil_of_executeFor h⟩
  · exact fun ⟨n, h⟩ => ⟨n, executeFor_of_singleStepUntil h⟩

/-- Settles O34: fuel by fuel, no answer yet is a run that goes on unhalted. -/
theorem executeHangsExactlyOnEndlessRuns : Obligations.ExecuteHangsExactlyOnEndlessRuns := by
  intro s
  calc ExecuteHangs s
    _ ↔ ∀ n, s.vmPresent = true ∧ RetiresUnhalted n s :=
      forall_congr' fun _ => executeFor_eq_none_iff
    _ ↔ s.vmPresent = true ∧ ∀ n, RetiresUnhalted n s := forall_and_left _ _

/-- Settles O37: indices 0 and 1 are IP and RF, those from 2 on the GPRs; 18 is past the last. -/
theorem readRegByIndex : Obligations.ReadRegByIndex := by
  intro s hs
  refine ⟨readReg_index hs 0, readReg_index hs 1, fun r => ?_, fun i => readReg_outside hs,
    fun fuel i => ⟨_, rfl⟩⟩
  rw [← readFile_natAdd, ← readReg_index hs, Fin.val_natAdd, Nat.cast_add, Int.add_comm]
  rfl

end Sys2Proof.Machine
end

section
/-! PROOFS. Data movement (41_move.md): the effect of an instruction whose only result is a GPR, and
the two forms of `mov` as such instructions. -/

namespace Sys2Proof.Machine

/-! ## Instructions whose only result is a GPR -/

/-- Writing one GPR and falling through has no other effect (40_execution_cycle.md R90). -/
theorem writesOnlyGpr_writeGpr_advance (s : State) (i : Instr) (rd : Reg) (v : Word) :
    WritesOnlyGpr s ((s.writeGpr rd v).advance i) rd v i.width := by
  refine ⟨?dest, ?others, rfl, rfl, rfl, rfl, ⟨rfl, fun _ => rfl⟩, rfl, rfl⟩
  case dest => rw [readGpr_advance, readGpr_writeGpr_same]
  case others =>
    intro r hr
    rw [readGpr_advance, readGpr_writeGpr_other s rd v hr]

/-- An instruction whose meaning is one GPR write completes with that write as its whole effect. -/
theorem exec_writesOnlyGpr {i : Instr} {s : State} {rd : Reg} {v : Word}
    (h : exec i s = writeRegAndAdvance i rd v s) :
    ∃ t, exec i s = .next t ∧ WritesOnlyGpr s t rd v i.width :=
  ⟨_, h, writesOnlyGpr_writeGpr_advance s i rd v⟩

/-! ## The two forms of `mov` -/

theorem exec_movReg (rd rs : Reg) (s : State) :
    exec (.movReg rd rs) s = writeRegAndAdvance (.movReg rd rs) rd (s.readGpr rs) s := rfl

theorem exec_movImm (rd : Reg) (imm : Word) (s : State) :
    exec (.movImm rd imm) s = writeRegAndAdvance (.movImm rd imm) rd imm s := rfl

/-! ## The obligations -/

/-- Settles O8: the one write is of the source's old value, and the form is 5 bytes wide. -/
theorem movRegCopies : Obligations.MovRegCopies := fun rd rs s =>
  ⟨rfl, exec_writesOnlyGpr (exec_movReg rd rs s)⟩

/-- Settles O9: the one write is of the payload as encoded, and the form is 12 bytes wide. -/
theorem movImmLoads : Obligations.MovImmLoads := fun rd imm s =>
  ⟨rfl, exec_writesOnlyGpr (exec_movImm rd imm s)⟩

end Sys2Proof.Machine
end

section
/-! PROOFS. Arithmetic and logic (42_alu.md): the three instructions that compute a GPR from GPRs,
and the immediate form that `add` does not have. -/

namespace Sys2Proof.Machine

/-! ## Addition modulo 2^64 and the instructions' meanings -/

theorem toNat_add64 (a b : Word) : (add64 a b).toNat = (a.toNat + b.toNat) % 2 ^ 64 := by
  rw [add64, BitVec.toNat_ofNat, Nat.mod_mod]

theorem exec_add (rd rs : Reg) (s : State) :
    exec (.add rd rs) s =
      writeRegAndAdvance (.add rd rs) rd (add64 (s.readGpr rd) (s.readGpr rs)) s := rfl

theorem exec_inc (r : Reg) (s : State) :
    exec (.inc r) s = writeRegAndAdvance (.inc r) r (add64 (s.readGpr r) 1) s := rfl

theorem exec_xor (rd rs : Reg) (s : State) :
    exec (.xor rd rs) s =
      writeRegAndAdvance (.xor rd rs) rd (s.readGpr rd ^^^ s.readGpr rs) s := rfl

/-- An instruction whose meaning is one GPR write, the value written named by the register it
stands in afterwards. -/
theorem exec_writesOnlyGpr_readGpr {i : Instr} {s : State} {rd : Reg} {v : Word}
    (h : exec i s = writeRegAndAdvance i rd v s) :
    ∃ t, exec i s = .next t ∧ t.readGpr rd = v ∧ WritesOnlyGpr s t rd (t.readGpr rd) i.width := by
  obtain ⟨t, hexec, hdest, hframe⟩ := exec_writesOnlyGpr h
  exact ⟨t, hexec, hdest, rfl, hframe⟩

/-! ## `add` has no immediate form (30_encoding.md R53) -/

theorem decode_add_regImm (rest : List Byte) :
    decode ([0x02, 0x01, 0x02] ++ rest) = .error .badForm :=
  (decode_opcode .add ([0x01, 0x02] ++ rest)).trans
    (decodeAfterOpcode_badForm (ks := [.reg, .imm]) rfl rfl)

theorem compile_add_regImm :
    compile (ascii "add r1, 5") = .error { line := 1, kind := .wrongOperandKind } := by
  decide

/-! ## The obligations -/

/-- Settles O10: the one write is of the sum, and `add` with a register and an immediate is no
admitted form. -/
theorem addWrapsModulo : Obligations.AddWrapsModulo := by
  refine ⟨fun rd rs s => ⟨rfl, ?_⟩, decode_add_regImm, compile_add_regImm⟩
  obtain ⟨t, hexec, hdest, hwrites⟩ := exec_writesOnlyGpr_readGpr (exec_add rd rs s)
  exact ⟨t, hexec, by rw [hdest, toNat_add64], hwrites⟩

/-- Settles O11: the one write is of the sum with 1. -/
theorem incWrapsModulo : Obligations.IncWrapsModulo := by
  refine fun r s => ⟨rfl, ?_⟩
  obtain ⟨t, hexec, hdest, hwrites⟩ := exec_writesOnlyGpr_readGpr (exec_inc r s)
  exact ⟨t, hexec, by rw [hdest, toNat_add64]; rfl, hwrites⟩

/-- Settles O12: the one write is of the exclusive or, which a value has with itself 0. -/
theorem xorIsBitwise : Obligations.XorIsBitwise := by
  refine fun rd rs s => ⟨rfl, ?_⟩
  obtain ⟨t, hexec, hdest, hwrites⟩ := exec_writesOnlyGpr_readGpr (exec_xor rd rs s)
  refine ⟨t, hexec, fun k _ => ?bit, fun hsame => ?same, hwrites⟩
  case bit => rw [hdest, BitVec.getLsbD_xor]
  case same => rw [hdest, hsame, BitVec.xor_self]; rfl

end Sys2Proof.Machine
end

section
/-! PROOFS. Comparison (43_compare.md): `cmp` as a write of RF alone, and the code it records. -/

namespace Sys2Proof.Machine

/-! ## The instruction whose only result is RF -/

/-- Writing RF and falling through has no other effect (40_execution_cycle.md R90). -/
theorem writesOnlyRf_writeRf_advance (s : State) (i : Instr) (v : Word) :
    WritesOnlyRf s ((s.writeRf v).advance i) v i.width :=
  ⟨rfl, readGpr_writeRf s v, rfl, rfl, rfl, ⟨rfl, fun _ => rfl⟩, rfl, rfl⟩

theorem exec_cmp (ra rb : Reg) (s : State) :
    exec (.cmp ra rb) s =
      .next ((s.writeRf (s.rfCode (relationOf (s.readGpr ra) (s.readGpr rb)))).advance
        (.cmp ra rb)) := rfl

/-! ## The code recorded (10_state.md R22) -/

/-- Which of the three codes is recorded, by the unsigned order of the values compared. -/
theorem rfCode_relationOf (s : State) (a b : Word) :
    (a.toNat < b.toNat → s.rfCode (relationOf a b) = s.params.rfCodes.less) ∧
    (a.toNat = b.toNat → s.rfCode (relationOf a b) = s.params.rfCodes.equal) ∧
    (b.toNat < a.toNat → s.rfCode (relationOf a b) = s.params.rfCodes.greater) := by
  rcases relationOf_cases a b with ⟨hlt, hrel⟩ | ⟨heq, hrel⟩ | ⟨hgt, hrel⟩ <;> rw [hrel]
  · exact ⟨fun _ => rfl, fun heq => by omega, fun hgt => by omega⟩
  · exact ⟨fun hlt => by omega, fun _ => rfl, fun hgt => by omega⟩
  · exact ⟨fun hlt => by omega, fun heq => by omega, fun _ => rfl⟩

/-! ## The obligation -/

/-- Settles O13: the one write is of the code of the registers' relation, and the form is 5 bytes
wide. -/
theorem cmpRecordsUnsignedRelation : Obligations.CmpRecordsUnsignedRelation := fun ra rb s =>
  ⟨rfl, _, exec_cmp ra rb s, writesOnlyRf_writeRf_advance s (.cmp ra rb) _,
    rfCode_relationOf s (s.readGpr ra) (s.readGpr rb)⟩

end Sys2Proof.Machine
end

section
/-! PROOFS. Control transfer (44_branch.md): a jump as a write of IP alone, when a conditional jump
is taken, and what the conditional jumps decide after a `cmp`. -/

namespace Sys2Proof.Machine

open Sys2Proof.Config

/-! ## Instructions whose only result is IP -/

/-- Retiring at an address has no other effect (40_execution_cycle.md R93). -/
theorem movesOnlyIp_retire (s : State) (a : Word) : MovesOnlyIp s (s.retire a) a :=
  ⟨rfl, rfl, readGpr_retire s a, rfl, rfl, ⟨rfl, fun _ => rfl⟩, rfl, rfl⟩

theorem movesOnlyIp_advance (s : State) (i : Instr) :
    MovesOnlyIp s (s.advance i) (s.ip + BitVec.ofNat 64 i.width) :=
  movesOnlyIp_retire s (s.nextIp i.width)

theorem exec_jmp (t : Word) (s : State) : exec (.jmp t) s = .next (s.retire t) := rfl

theorem exec_jle (t : Word) (s : State) :
    exec (.jle t) s = conditionalJump (.jle t) s.rfSaysLessOrEqual t s := rfl

theorem exec_jg (t : Word) (s : State) :
    exec (.jg t) s = conditionalJump (.jg t) s.rfSaysGreater t s := rfl

/-! ## When a conditional jump is taken (44_branch.md R115) -/

section ConditionalJump

variable {i : Instr} {c : Bool} {p : Prop} [Decidable p] {a : Word} {s : State}

/-- While RF is NONE the policy decides, whatever the condition is. -/
theorem conditionalJump_of_unset (hrf : s.rf = 0) :
    (s.params.unsetRf = .fault → conditionalJump i c a s = .fault .rfUnset) ∧
    (s.params.unsetRf = .notTaken → conditionalJump i c a s = .next (s.advance i)) := by
  rcases conditionalJump_cases i c a s with
    ⟨-, hp, e⟩ | ⟨-, hp, e⟩ | ⟨hset, -, -⟩ | ⟨hset, -, -⟩
  · exact ⟨fun _ => e, fun h => (nomatch hp.symm.trans h)⟩
  · exact ⟨fun h => (nomatch hp.symm.trans h), fun _ => e⟩
  all_goals exact absurd hrf hset

/-- Once RF is set the condition alone decides. -/
theorem conditionalJump_of_set (hc : c = true ↔ p) (hrf : s.rf ≠ 0) :
    conditionalJump i c a s = .next (s.retire (if p then a else s.nextIp i.width)) := by
  rcases conditionalJump_cases i c a s with
    ⟨hunset, -, -⟩ | ⟨hunset, -, -⟩ | ⟨-, rfl, e⟩ | ⟨-, rfl, e⟩
  · exact absurd hunset hrf
  · exact absurd hunset hrf
  · rw [e, if_pos (hc.1 rfl)]
  · rw [e, if_neg (mt hc.2 Bool.false_ne_true), State.advance]

/-- The pseudocode that `jle` and `jg` share (R117, R118), with its four ways out. -/
theorem conditionalJump_effect (hc : c = true ↔ p) :
    (s.rf = 0 → s.params.unsetRf = .fault → conditionalJump i c a s = .fault .rfUnset) ∧
    (s.rf = 0 → s.params.unsetRf = .notTaken → ∃ t, conditionalJump i c a s = .next t ∧
      MovesOnlyIp s t (s.ip + BitVec.ofNat 64 i.width)) ∧
    (s.rf ≠ 0 → p → ∃ t, conditionalJump i c a s = .next t ∧ MovesOnlyIp s t a) ∧
    (s.rf ≠ 0 → ¬ p → ∃ t, conditionalJump i c a s = .next t ∧
      MovesOnlyIp s t (s.ip + BitVec.ofNat 64 i.width)) := by
  refine ⟨fun hrf => ?fault, fun hrf hp => ?fallThrough, fun hrf h => ?taken, fun hrf h => ?other⟩
  case fault => exact (conditionalJump_of_unset hrf).1
  case fallThrough => exact ⟨_, (conditionalJump_of_unset hrf).2 hp, movesOnlyIp_advance s i⟩
  case taken =>
    refine ⟨_, conditionalJump_of_set hc hrf, ?_⟩
    rw [if_pos h]
    exact movesOnlyIp_retire s a
  case other =>
    refine ⟨_, conditionalJump_of_set hc hrf, ?_⟩
    rw [if_neg h]
    exact movesOnlyIp_advance s i

end ConditionalJump

/-- A jump that the rule calls taken retires at its target (44_branch.md R113). -/
theorem exec_taken {i : Instr} {target : Word} {s : State} (hi : targetOf i = some target)
    (h : (∃ t, i = .jmp t) ∨
      ((∃ t, i = .jle t) ∧ s.rf ≠ 0 ∧
        (s.rf = s.params.rfCodes.less ∨ s.rf = s.params.rfCodes.equal)) ∨
      ((∃ t, i = .jg t) ∧ s.rf ≠ 0 ∧ s.rf = s.params.rfCodes.greater)) :
    exec i s = .next (s.retire target) := by
  rcases h with ⟨t, rfl⟩ | ⟨⟨t, rfl⟩, hrf, hcode⟩ | ⟨⟨t, rfl⟩, hrf, hcode⟩ <;> cases hi
  · exact exec_jmp target s
  · rw [exec_jle, conditionalJump_of_set rfSaysLessOrEqual_iff hrf, if_pos hcode]
  · rw [exec_jg, conditionalJump_of_set rfSaysGreater_iff hrf, if_pos hcode]

/-! ## The fetch after a jump, and the jump at IP -/

/-- A running VM whose IP is at or past `len(B)` raises PastEnd (30_encoding.md R58). -/
theorem step_pastEnd {s : State} (hs : s.Running) (h : s.bytecode.len ≤ s.ip.toNat) :
    step s = .fault (.decodeError .pastEnd) := by
  obtain ⟨hpast, -, -⟩ := decodeChecksInOrder s hs
  exact hpast h

theorem retires_jmp_of_holds {s : State} {a : Word} (hs : s.Running)
    (h : s.bytecode.Holds s.ip.toNat (encode (.jmp a))) : Retires s (.jmp a) (s.retire a) :=
  ⟨hs, ⟨_, fetchDecode_of_holds h⟩, exec_jmp a s⟩

/-- `single_step` answers Continued where an instruction retires (40_execution_cycle.md R96). -/
theorem Retires.singleStep_eq {s t : State} {i : Instr} (h : Retires s i t) :
    singleStep s = (.continued, t) := by
  obtain ⟨hp, hh⟩ := h.running
  simp [singleStep, hp, hh, h.retireOne_eq]

/-- After a jump to its own offset the same jump stands at IP, so `execute` goes on for ever
(44_branch.md R116). -/
theorem executeHangs_of_selfJump {s : State} (hs : s.Running)
    (h : s.bytecode.Holds s.ip.toNat (encode (.jmp s.ip))) : ExecuteHangs s := by
  intro n
  induction n generalizing s with
  | zero => exact executeFor_zero hs
  | succ n ih =>
    rw [executeFor_next hs (retires_jmp_of_holds hs h).retireOne_eq]
    exact ih (s := s.retire s.ip) hs h

/-! ## The condition after a `cmp` (44_branch.md R114) -/

theorem rfCodes_code_ne_zero {c : RfCodes} (h : c.Valid) (rel : Relation) : c.code rel ≠ 0 := by
  obtain ⟨-, -, -, hless, hequal, hgreater⟩ := h
  cases rel with
  | less => exact hless
  | equal => exact hequal
  | greater => exact hgreater

/-- The codes tell the three relations apart (10_state.md R22). -/
theorem rfCodes_code_injective {c : RfCodes} (h : c.Valid) : Function.Injective c.code := by
  obtain ⟨hle, hlg, heg, -, -, -⟩ := h
  intro r r' e
  match r, r', e with
  | .less, .less, _ | .equal, .equal, _ | .greater, .greater, _ => rfl
  | .less, .equal, e => exact absurd e hle
  | .less, .greater, e => exact absurd e hlg
  | .equal, .greater, e => exact absurd e heg
  | .equal, .less, e => exact absurd e.symm hle
  | .greater, .less, e => exact absurd e.symm hlg
  | .greater, .equal, e => exact absurd e.symm heg

theorem relationOf_less_or_equal_iff {a b : Word} :
    relationOf a b = .less ∨ relationOf a b = .equal ↔ a.toNat ≤ b.toNat := by
  rcases relationOf_cases a b with ⟨h, e⟩ | ⟨h, e⟩ | ⟨h, e⟩ <;> rw [e]
  · exact iff_of_true (.inl rfl) h.le
  · exact iff_of_true (.inr rfl) h.le
  · exact iff_of_false (by decide) h.not_ge

theorem relationOf_greater_iff {a b : Word} :
    relationOf a b = .greater ↔ b.toNat < a.toNat := by
  rcases relationOf_cases a b with ⟨h, e⟩ | ⟨h, e⟩ | ⟨h, e⟩ <;> rw [e]
  · exact iff_of_false nofun h.not_gt
  · exact iff_of_false nofun h.not_gt
  · exact iff_of_true rfl h

section AfterComparison

variable {u : State} {a b : Word} (hv : u.params.rfCodes.Valid)
  (hrf : u.rf = u.rfCode (relationOf a b))

include hv hrf

theorem rf_ne_zero_of_comparison : u.rf ≠ 0 := hrf ▸ rfCodes_code_ne_zero hv _

theorem rf_eq_code_iff_of_comparison (rel : Relation) :
    u.rf = u.rfCode rel ↔ relationOf a b = rel :=
  hrf ▸ (rfCodes_code_injective hv).eq_iff

theorem rfSaysLessOrEqual_iff_of_comparison :
    u.rfSaysLessOrEqual = true ↔ a.toNat ≤ b.toNat :=
  calc u.rfSaysLessOrEqual = true
    _ ↔ u.rf = u.rfCode .less ∨ u.rf = u.rfCode .equal := rfSaysLessOrEqual_iff
    _ ↔ relationOf a b = .less ∨ relationOf a b = .equal :=
      or_congr (rf_eq_code_iff_of_comparison hv hrf .less)
        (rf_eq_code_iff_of_comparison hv hrf .equal)
    _ ↔ a.toNat ≤ b.toNat := relationOf_less_or_equal_iff

theorem rfSaysGreater_iff_of_comparison : u.rfSaysGreater = true ↔ b.toNat < a.toNat :=
  calc u.rfSaysGreater = true
    _ ↔ u.rf = u.rfCode .greater := rfSaysGreater_iff
    _ ↔ relationOf a b = .greater := rf_eq_code_iff_of_comparison hv hrf .greater
    _ ↔ b.toNat < a.toNat := relationOf_greater_iff

end AfterComparison

/-! ## The obligations -/

/-- Settles O14: a taken jump retires at its target, and the fetch there is the bytecode's. -/
theorem takenJumpSetsIpToTarget : Obligations.TakenJumpSetsIpToTarget := by
  intro i target s hi h
  exact ⟨s.retire target, exec_taken hi h, rfl, rfl, fun hs hend => step_pastEnd hs hend⟩

/-- Settles O15: the one write is of IP; a jump to itself finds itself again, and at `len(B)` there
is nothing to fetch. -/
theorem jmpMovesIp : Obligations.JmpMovesIp := by
  refine ⟨fun target s => ?effect, fun s hs h => ?selfJump, fun s target hs h hend => ?toEnd⟩
  case effect => exact ⟨rfl, _, exec_jmp target s, movesOnlyIp_retire s target⟩
  case selfJump =>
    exact ⟨executeHangs_of_selfJump hs h, _, (retires_jmp_of_holds hs h).singleStep_eq, rfl, rfl⟩
  case toEnd =>
    refine ⟨s.retire target, ?_, step_pastEnd hs hend.ge⟩
    rw [step_running hs, (retires_jmp_of_holds hs h).retireOne_eq]

/-- Settles O27: `cmp` leaves a code in RF that tells the relation, which is not NONE, so each jump
is decided by its condition alone. -/
theorem branchesDecideTheComparison : Obligations.BranchesDecideTheComparison := by
  intro s t u ra rb target hv ht hrf hparams
  rw [exec_cmp] at ht
  cases ht
  have hcode : u.rf = u.rfCode (relationOf (s.readGpr ra) (s.readGpr rb)) := by
    rw [hrf, advance_rf, writeRf_rf, State.rfCode, State.rfCode, hparams, advance_params,
      writeRf_params]
  have hvalid : u.params.rfCodes.Valid := hparams ▸ hv
  have hset : u.rf ≠ 0 := rf_ne_zero_of_comparison hvalid hcode
  exact ⟨_, _,
    conditionalJump_of_set (rfSaysLessOrEqual_iff_of_comparison hvalid hcode) hset,
    conditionalJump_of_set (rfSaysGreater_iff_of_comparison hvalid hcode) hset, rfl, rfl, rfl, rfl⟩

/-- Settles O16: the shared pseudocode with the condition LESS or EQUAL; the form is 10 bytes
wide. -/
theorem jleJumpsOnLessOrEqual : Obligations.JleJumpsOnLessOrEqual := by
  intro target s
  obtain ⟨hfault, hpolicy, htaken, hother⟩ :=
    conditionalJump_effect (i := .jle target) (a := target) (s := s) rfSaysLessOrEqual_iff
  exact ⟨rfl, hfault, hpolicy, htaken, fun hrf hl he => hother hrf (not_or.2 ⟨hl, he⟩)⟩

/-- Settles O17: the shared pseudocode with the condition GREATER; the form is 10 bytes wide. -/
theorem jgJumpsOnGreater : Obligations.JgJumpsOnGreater := fun _ _ =>
  ⟨rfl, conditionalJump_effect rfSaysGreater_iff⟩

end Sys2Proof.Machine
end

section
/-! PROOFS. Program termination (45_exit.md): `exit` at IP and what it retires to, and the ways in
which the halted flag is set. -/

namespace Sys2Proof.Machine

/-! ## `exit` at IP -/

theorem exec_exit (s : State) : exec .exit s = .next { s.advance .exit with halted := true } := rfl

theorem Memory.holds_singleton {m : Memory} {a : Nat} {b : Byte} (h : m.read a = some b) :
    m.Holds a [b] := by
  intro k hk
  obtain rfl : k = 0 := Nat.lt_one_iff.1 hk
  exact h

/-- The byte 09 at IP of a running VM is an `exit`, which retires (45_exit.md R120). -/
theorem retires_exit_of_read {s : State} (hs : s.Running)
    (h : s.bytecode.read s.ip.toNat = some 0x09) :
    Retires s .exit { s.advance .exit with halted := true } :=
  ⟨hs, ⟨_, fetchDecode_of_holds (Memory.holds_singleton h)⟩, exec_exit s⟩

/-! ## Where the drivers stop with an error -/

/-- `single_step` raises an error on a running VM only, and leaves its state (60_exceptions.md
R124). -/
theorem singleStep_runtimeError {s t : State} {f : Fault} (h : singleStep s = (.runtimeError f, t)) :
    t = s ∧ s.Running := by
  rcases singleStep_cases s with ⟨-, e⟩ | ⟨-, -, e⟩ | ⟨-, _, _, -, -, e⟩ | ⟨hs, _, -, e⟩ <;>
    rw [e] at h <;> cases h
  exact ⟨rfl, hs⟩

/-- The loop of `single_step` stops with the answer of its last call. -/
theorem singleStepUntil_last {n : Nat} {s t : State} {r : Response}
    (h : singleStepUntil n s = some (r, t)) : ∃ u, singleStep u = (r, t) := by
  induction n generalizing s with
  | zero => cases h
  | succ n ih =>
    rcases e : singleStep s with ⟨a, u⟩
    by_cases ha : a = .continued
    · subst ha
      rw [singleStepUntil_continued e] at h
      exact ih h
    · rw [singleStepUntil_stop e ha] at h
      cases h
      exact ⟨s, e⟩

/-- An error of `execute` is raised by `single_step` in the state it leaves (60_exceptions.md
R124). -/
theorem executeFor_runtimeError {n : Nat} {s t : State} {f : Fault}
    (h : executeFor n s = some (.runtimeError f, t)) :
    singleStep t = (.runtimeError f, t) ∧ t.Running := by
  obtain ⟨u, hu⟩ := singleStepUntil_last (singleStepUntil_of_executeFor h)
  obtain ⟨rfl, hrun⟩ := singleStep_runtimeError hu
  exact ⟨hu, hrun⟩

/-! ## The obligations -/

/-- Settles O18: the one-byte form falls through with the flag set, and each driver answers the halted
VM it leaves at once. -/
theorem exitHaltsAfterRetiring : Obligations.ExitHaltsAfterRetiring := by
  refine ⟨fun s => ?effect, fun s hs h => ?drivers⟩
  case effect =>
    exact ⟨rfl, _, exec_exit s, rfl, rfl, rfl, fun _ => rfl, rfl, ⟨rfl, fun _ => rfl⟩, rfl, rfl⟩
  case drivers =>
    have hexit := retires_exit_of_read hs h
    obtain ⟨hp, -⟩ := hs
    exact ⟨_, hexit.exec_eq, hexit.singleStep_eq, singleStep_halted hp rfl,
      executeFor_halted hp rfl⟩

/-- Settles O30: `init_vm` clears the flag, a run of retirements sets it by an `exit` at its end, and
`execute` returns an error from a running VM only. -/
theorem onlyExitSetsHalted : Obligations.OnlyExitSetsHalted := by
  refine ⟨fun fuel c s t r hs h ht => ?operation, fun n s t f h => ?error⟩
  case operation =>
    rcases perform_cases h with ⟨bs, -, -, rfl⟩ | ⟨is, his⟩
    · cases ht
    · obtain ⟨js, u, -, hrun, hexit⟩ := his.ends_with_exit hs ht
      exact ⟨js, u, hrun, hexit⟩
  case error =>
    obtain ⟨-, -, hh⟩ := executeFor_runtimeError h
    exact hh

end Sys2Proof.Machine
end

section
/-! PROOFS. Exceptions (60_exceptions.md): which instruction raises `RfUnset`, what an error leaves
for the drivers to find again, and what the operations answer without a VM. -/

namespace Sys2Proof.Machine

/-! ## The error of an instruction -/

/-- The only error that an instruction raises, and where (60_exceptions.md R125). -/
theorem exec_fault_cases {i : Instr} {s : State} {f : Fault} (h : exec i s = .fault f) :
    f = .rfUnset ∧ IsConditionalJump i ∧ s.rf = 0 ∧ s.params.unsetRf = .fault := by
  rcases exec_total i s with ⟨t, e⟩ | ⟨e, hi⟩ <;> rw [e] at h <;> cases h
  exact ⟨rfl, hi⟩

theorem exec_ne_refused (i : Instr) (s : State) (r : Refusal) : exec i s ≠ .refused r := by
  rcases exec_total i s with ⟨t, e⟩ | ⟨e, -⟩ <;> rw [e] <;> nofun

/-- Under the policy `fault` a conditional jump raises `RfUnset` while RF is NONE (44_branch.md
R115). -/
theorem exec_conditionalJump_unset {i : Instr} {s : State} (hi : IsConditionalJump i)
    (hrf : s.rf = 0) (hp : s.params.unsetRf = .fault) : exec i s = .fault .rfUnset := by
  cases i with
  | jle t => exact (conditionalJump_of_unset hrf).1 hp
  | jg t => exact (conditionalJump_of_unset hrf).1 hp
  | _ => exact hi.elim

/-! ## The drivers on an error, and without a VM -/

/-- `single_step` answers the error that `Step()` raises and writes nothing (60_exceptions.md
R124). -/
theorem singleStep_fault {s : State} {f : Fault} (hs : s.Running) (h : s.retireOne = .fault f) :
    singleStep s = (.runtimeError f, s) := by
  obtain ⟨hp, hh⟩ := hs
  simp [singleStep, hp, hh, h]

/-- Where `single_step` raises an error, so does `execute` at its first step. -/
theorem executeFor_of_singleStep_runtimeError {s : State} {f : Fault}
    (h : singleStep s = (.runtimeError f, s)) (n : Nat) :
    executeFor (n + 1) s = some (.runtimeError f, s) :=
  executeFor_of_singleStepUntil (singleStepUntil_stop h nofun n)

theorem singleStep_noVm {s : State} (h : s.vmPresent = false) :
    singleStep s = (.refused .noVm, s) := by
  simp [singleStep, h]

theorem readReg_noVm {s : State} (h : s.vmPresent = false) (i : Int) :
    readReg i s = .refused .noVm := by
  simp [readReg, h]

theorem getCycle_noVm {s : State} (h : s.vmPresent = false) : getCycle s = .refused .noVm := by
  simp [getCycle, h]

theorem getCycle_present {s : State} (h : s.vmPresent = true) : getCycle s = .value s.cycle :=
  if_pos h

/-- Only `init_vm` gets past a state that both drivers leave as it is. -/
theorem performAll_fixed_of_drivers {fuel : Nat} {s : State} {cs : List Command}
    (hexec : ∃ r, executeFor fuel s = some (r, s)) (hstep : ∃ r, singleStep s = (r, s))
    (hcs : ∀ c ∈ cs, ¬ c.IsInit) : ∃ rs, performAll fuel cs s = some (rs, s) :=
  performAll_fixed fun c hc => perform_fixed hexec hstep (hcs c hc)

/-! ## The obligations -/

/-- Settles O26: an instruction that does not retire is a conditional jump that finds RF at NONE
under the policy `fault`. -/
theorem rfUnsetExactlyUnderFaultPolicy : Obligations.RfUnsetExactlyUnderFaultPolicy := by
  refine fun i s => ⟨⟨fun h => ?raised, fun ⟨hi, hrf, hp⟩ => ?raises⟩, fun w hs hd h => ?step,
    fun f h => ?only, exec_ne_refused i s⟩
  case raised =>
    obtain ⟨-, hi⟩ := exec_fault_cases h
    exact hi
  case raises => exact exec_conditionalJump_unset hi hrf hp
  case step =>
    have hfault : s.retireOne = .fault .rfUnset := by
      rw [← step_running hs, step_decoded hs hd, h]
    exact singleStep_fault hs hfault
  case only =>
    obtain ⟨rfl, -⟩ := exec_fault_cases h
    rfl

/-- Settles O31: the state `execute` leaves is one in which `single_step` raises the error, so each
driver raises it there and leaves that state. -/
theorem runtimeErrorWritesNothing : Obligations.RuntimeErrorWritesNothing := by
  refine ⟨fun s t f h => ?step, fun n s t f h => ?execute⟩
  case step =>
    obtain ⟨rfl, -⟩ := singleStep_runtimeError h
    rfl
  case execute =>
    obtain ⟨hstep, -, hh⟩ := executeFor_runtimeError h
    have hexec : ∀ k, executeFor (k + 1) t = some (.runtimeError f, t) :=
      executeFor_of_singleStep_runtimeError hstep
    exact ⟨executeFor_retiresAll h, hh, hstep, hexec, fun fuel _ hcs =>
      performAll_fixed_of_drivers ⟨_, hexec fuel⟩ ⟨_, hstep⟩ hcs⟩

/-- Settles O38: each guard finds no VM, so both drivers leave the state, and every operation but
`init_vm` does. -/
theorem withoutVmOperationsAreRefused : Obligations.WithoutVmOperationsAreRefused := by
  refine ⟨fun s hp => ?present, fun s hp => ?absent, fun s fuel src => rfl⟩
  case present =>
    have hcycle : getCycle s = .value s.cycle := getCycle_present hp
    exact ⟨hcycle, fun _ => by rw [perform, hcycle]⟩
  case absent =>
    have hstep : singleStep s = (.refused .noVm, s) := singleStep_noVm hp
    have hexec : ∀ n, executeFor n s = some (.refused .noVm, s) := executeFor_noVm hp
    exact ⟨step_noVm hp, hstep, hexec, readReg_noVm hp, getCycle_noVm hp, fun fuel _ hcs =>
      performAll_fixed_of_drivers ⟨_, hexec fuel⟩ ⟨_, hstep⟩ hcs⟩

end Sys2Proof.Machine
end

section
/-! PROOFS. Reset (70_reset_and_hazards.md): what `init_vm` answers, what it leaves in the register
file, and that only the machine's parameters enter the state it leaves. -/

namespace Sys2Proof.Machine

open Sys2Proof.Config

/-! ## The state after `init_vm` -/

/-- The register file is all zero after `init_vm`: IP, RF and the 16 GPRs (10_state.md R31). -/
@[simp] theorem readFile_initVm (s : State) (bs : List Byte) (i : Fin 18) :
    (s.initVm bs).readFile i = 0 := by
  rw [State.readFile]
  split
  case isTrue => exact initVm_ip s bs
  case isFalse =>
    split
    case isTrue => exact initVm_rf s bs
    case isFalse => exact readGpr_initVm s bs _

/-- Of the state before it, `init_vm` reads the parameters only (70_reset_and_hazards.md R145). -/
theorem initVm_eq_of_params_eq {s s' : State} (h : s.params = s'.params) (bs : List Byte) :
    s.initVm bs = s'.initVm bs := by
  rw [State.initVm, h, State.initVm]

/-- A second `init_vm` leaves what it would leave without the first. -/
@[simp] theorem initVm_initVm (s : State) (bs bs' : List Byte) :
    (s.initVm bs').initVm bs = s.initVm bs :=
  initVm_eq_of_params_eq (initVm_params s bs') bs

/-! ## The operation -/

/-- Within the length limit `init_vm` answers `()` (70_reset_and_hazards.md R143). -/
theorem initVmOp_short {bs : List Byte} (h : bs.length < bytecodeLimit) (s : State) :
    initVmOp bs s = (.done, s.initVm bs) :=
  if_pos h

/-! ## The obligations -/

/-- Settles O35: each component by its rule for `init_vm`; the bytes by the reading rule of a bound
bytecode. -/
theorem initVmSetsEverything : Obligations.InitVmSetsEverything := by
  intro s bs
  have hread : ∀ a, (s.initVm bs).bytecode.read a = bs[a]? := Memory.read_ofBytes bs
  exact ⟨readFile_initVm s bs, initVm_ip s bs, initVm_rf s bs, readGpr_initVm s bs,
    initVm_cycle s bs, initVm_halted s bs, initVm_vmPresent s bs, Memory.len_ofBytes bs, hread,
    fun hl => initVmOp_short hl s⟩

/-- Settles O36: `init_vm` reads the parameters only, and keeps them. -/
theorem initVmDiscardsThePreviousVm : Obligations.InitVmDiscardsThePreviousVm :=
  fun s _ bs bs' =>
    ⟨fun h => initVm_eq_of_params_eq h bs, initVm_initVm s bs bs', initVm_initVm s bs bs⟩

end Sys2Proof.Machine
end

section
/-! PROOFS. The decoder on encodings (30_encoding.md): the round trip from an instruction, and the
spec's test vectors as instances of it. -/

namespace Sys2Proof.Machine

/-- Settles O4: the decoder reads back the opcode, the descriptors and the payloads in turn
(`decode_encode_append`). -/
theorem decodeOfEncode : Obligations.DecodeOfEncode := decode_encode_append

/-- Settles O3: each byte string is the encoding of its instruction with nothing after it, the last
one with a byte after it. -/
theorem specWordsDecode : Obligations.SpecWordsDecode :=
  ⟨decode_encode_append (.movReg 0 1) [],
    decode_encode_append (.movImm 3 42) [],
    decode_encode_append (.add 15 0) [],
    decode_encode_append (.inc 15) [],
    decode_encode_append (.xor 0 1) [],
    decode_encode_append (.cmp 2 2) [],
    decode_encode_append (.jmp 310) [],
    decode_encode_append (.jle 51) [],
    decode_encode_append (.jg 51) [],
    decode_encode_append .exit [0x09]⟩

end Sys2Proof.Machine
end
